-- ==== Sys2Proof/Word.lean ====
section
/-! DEFINITION. The bit-vector types the spec itself treats as bits: command words (R60, R61), their operand
and immediate fields (R62, R64), nibbles (R9) and key bytes (R203). -/

namespace Sys2Proof

/-- One command, or one word of the gate log: 64 bits, always (R60, R68). -/
abbrev Word := BitVec 64

/-- An operand field A, B or C: an unsigned register index or region base (R62). -/
abbrev RegIx := BitVec 8

/-- The immediate field IMM, and every 16-bit block, key or state value (R43, R64). -/
abbrev Block := BitVec 16

/-- A 4-bit value: an element of GF(2^4), bit k the coefficient of x^k (R9, R120). -/
abbrev Nibble := BitVec 4

/-- A key byte of the classical schedule (R203). -/
abbrev Byte := BitVec 8

end Sys2Proof
end

