-- ==== Sys2Proof/Syntax.lean ====
section
/-! DEFINITION. The instruction set QSAES-CORE version 1 (R2): one constructor of `Instr` for each row of
spec/opcode_table.json, the names of the sixteen opcodes (R65), and the four primitives a command expands into
(R11, R100). The pseudo-instruction SHIFTROWS has no word (R77) and is syntax of the assembler only
(Machine/Assembler.lean). -/

namespace Sys2Proof

/-- A layout map of the state block: which physical nibble holds which logical nibble (R170). It is bookkeeping
of the caller and no state of the core; ADDRK names one in its OPT bit (R63). -/
inductive Layout where
  | ident   -- [0, 1, 2, 3]
  | swap13  -- [0, 3, 2, 1]
deriving DecidableEq, Repr

/-- The round a KEYEXP derives, encoded as OPT = r - 1 (R63, R191). -/
inductive Round where
  | one
  | two
deriving DecidableEq, Repr

/-- Whether SRMC drives its scratch back to zero: the OPT bit of SRMC (R63, R175). -/
inductive Cleanup where
  | clean
  | noclean
deriving DecidableEq, Repr

/-- The commands, in the order of R65. Operands stand in the order of the fields A, B, C, OPT, IMM. -/
inductive Instr where
  | flip (t : RegIx)                                     -- R101
  | cx (c t : RegIx)                                     -- R102
  | ccx (c1 c2 t : RegIx)                                -- R103
  | reset (t : RegIx)                                    -- R104
  | gfSq (a o : RegIx)                                   -- R123
  | gfMul (a b c : RegIx)                                -- R126
  | gfInv (a w o : RegIx)                                -- R129
  | gfMul4 (a o : RegIx)                                 -- R173
  | affine (c b : RegIx)                                 -- R142
  | sbox (a w o : RegIx)                                 -- R152
  | subnib (s w o : RegIx)                               -- R156
  | srmc (s w : RegIx) (cleanup : Cleanup)               -- R176
  | keyexp (k w : RegIx) (r : Round)                     -- R191
  | addrk (s k : RegIx) (layout : Layout)                -- R221
  | addrkConst (s k : RegIx) (imm : Block)               -- R223
  | loadc (b : RegIx) (imm : Block)                      -- R225
deriving DecidableEq, Repr

/-- The names of the opcodes of R65. -/
inductive Opcode where
  | flip | cx | ccx | reset
  | gfSq | gfMul | gfInv | gfMul4
  | affine
  | sbox | subnib
  | srmc
  | keyexp
  | addrk | addrkConst | loadc
deriving DecidableEq, Repr

/-- A primitive on named registers: what expansions are lists of (R11), and what Emit takes (R100). The register
indices are plain naturals, as in the spec's pseudocode (`a+1`, `w+8p`). -/
inductive Gate where
  | flip (t : Nat)
  | cx (c t : Nat)
  | ccx (c1 c2 t : Nat)
  | reset (t : Nat)
deriving DecidableEq, Repr

end Sys2Proof
end

