-- ==== Sys2Proof/Decode.lean ====
section
/-! DEFINITION. The command word: its fields (R61), decoding in the order of R74, total on all 2^64 words and
rejecting by name, and the encoder (R61, R65, R71). -/

namespace Sys2Proof

/-- Why a word is no command: the two faults decoding can raise (R74). -/
inductive DecodeError where
  | illegalOpcode     -- the opcode is one of the 240 reserved values (R66)
  | illegalEncoding   -- RSV, or a field the opcode does not use, is not zero (R67)
deriving DecidableEq, Repr

/-! ### The fields of R61 -/

def opcField (w : Word) : BitVec 8 := w.extractLsb' 56 8
def aField (w : Word) : RegIx := w.extractLsb' 48 8
def bField (w : Word) : RegIx := w.extractLsb' 40 8
def cField (w : Word) : RegIx := w.extractLsb' 32 8
def rsvField (w : Word) : BitVec 15 := w.extractLsb' 17 15
def optField (w : Word) : BitVec 1 := w.extractLsb' 16 1
def immField (w : Word) : Block := w.extractLsb' 0 16

/-! ### The opcode map of R65 -/

/-- The value of field OPC for each opcode (R65). -/
def Opcode.byte : Opcode → BitVec 8
  | .flip => 0x01
  | .cx => 0x02
  | .ccx => 0x03
  | .reset => 0x04
  | .gfSq => 0x10
  | .gfMul => 0x11
  | .gfInv => 0x12
  | .gfMul4 => 0x13
  | .affine => 0x20
  | .sbox => 0x30
  | .subnib => 0x31
  | .srmc => 0x40
  | .keyexp => 0x50
  | .addrk => 0x60
  | .addrkConst => 0x61
  | .loadc => 0x62

/-- The rows of R65, in its order. -/
def allOpcodes : List Opcode :=
  [.flip, .cx, .ccx, .reset, .gfSq, .gfMul, .gfInv, .gfMul4, .affine, .sbox, .subnib, .srmc, .keyexp,
    .addrk, .addrkConst, .loadc]

/-- The opcode a value of field OPC names, if any; the other 240 values are reserved (R66). -/
def opcodeOf (b : BitVec 8) : Option Opcode := allOpcodes.find? fun o => o.byte == b

/-- Which of the fields B, C, OPT and IMM an opcode uses. Every opcode uses OPC and A, none uses RSV (R65, R67). -/
structure FieldUse where
  b : Bool
  c : Bool
  opt : Bool
  imm : Bool
deriving DecidableEq, Repr

/-- The operand column of R65. -/
def Opcode.uses : Opcode → FieldUse
  | .flip => ⟨false, false, false, false⟩
  | .cx => ⟨true, false, false, false⟩
  | .ccx => ⟨true, true, false, false⟩
  | .reset => ⟨false, false, false, false⟩
  | .gfSq => ⟨true, false, false, false⟩
  | .gfMul => ⟨true, true, false, false⟩
  | .gfInv => ⟨true, true, false, false⟩
  | .gfMul4 => ⟨true, false, false, false⟩
  | .affine => ⟨true, false, false, false⟩
  | .sbox => ⟨true, true, false, false⟩
  | .subnib => ⟨true, true, false, false⟩
  | .srmc => ⟨true, false, true, false⟩
  | .keyexp => ⟨true, false, true, false⟩
  | .addrk => ⟨true, false, true, false⟩
  | .addrkConst => ⟨true, false, false, true⟩
  | .loadc => ⟨false, false, false, true⟩

/-- RSV is zero, and so is every field the opcode does not use (R67). -/
def unusedZero (o : Opcode) (w : Word) : Bool :=
  rsvField w == 0 && (o.uses.b || bField w == 0) && (o.uses.c || cField w == 0) &&
    (o.uses.opt || optField w == 0) && (o.uses.imm || immField w == 0)

/-! ### The option bit, per opcode (R63) -/

def cleanupOf (opt : BitVec 1) : Cleanup := if opt == 0 then .clean else .noclean
def roundOf (opt : BitVec 1) : Round := if opt == 0 then .one else .two
def layoutOf (opt : BitVec 1) : Layout := if opt == 0 then .ident else .swap13

/-- The command an opcode and the fields of a word make (R62 to R65). -/
def assembleFields (o : Opcode) (a b c : RegIx) (opt : BitVec 1) (imm : Block) : Instr :=
  match o with
  | .flip => .flip a
  | .cx => .cx a b
  | .ccx => .ccx a b c
  | .reset => .reset a
  | .gfSq => .gfSq a b
  | .gfMul => .gfMul a b c
  | .gfInv => .gfInv a b c
  | .gfMul4 => .gfMul4 a b
  | .affine => .affine a b
  | .sbox => .sbox a b c
  | .subnib => .subnib a b c
  | .srmc => .srmc a b (cleanupOf opt)
  | .keyexp => .keyexp a b (roundOf opt)
  | .addrk => .addrk a b (layoutOf opt)
  | .addrkConst => .addrkConst a b imm
  | .loadc => .loadc a imm

/-- Decoding, in the order of R74: the opcode first, then RSV and the unused fields. -/
def decode (w : Word) : Except DecodeError Instr :=
  match opcodeOf (opcField w) with
  | none => .error .illegalOpcode
  | some o =>
    if unusedZero o w then
      .ok (assembleFields o (aField w) (bField w) (cField w) (optField w) (immField w))
    else .error .illegalEncoding

/-! ### The encoder -/

/-- OPC, A, B, C, fifteen zero bits, OPT, IMM, from bit 63 down (R61). -/
def packWord (opc a b c : BitVec 8) (opt : BitVec 1) (imm : Block) : Word :=
  opc ++ a ++ b ++ c ++ 0#15 ++ opt ++ imm

def cleanupBit : Cleanup → BitVec 1
  | .clean => 0
  | .noclean => 1

def roundBit : Round → BitVec 1
  | .one => 0
  | .two => 1

def layoutBit : Layout → BitVec 1
  | .ident => 0
  | .swap13 => 1

/-- The one word of a command (R65, R67). -/
def encode : Instr → Word
  | .flip t => packWord 0x01 t 0 0 0 0
  | .cx c t => packWord 0x02 c t 0 0 0
  | .ccx c1 c2 t => packWord 0x03 c1 c2 t 0 0
  | .reset t => packWord 0x04 t 0 0 0 0
  | .gfSq a o => packWord 0x10 a o 0 0 0
  | .gfMul a b c => packWord 0x11 a b c 0 0
  | .gfInv a w o => packWord 0x12 a w o 0 0
  | .gfMul4 a o => packWord 0x13 a o 0 0 0
  | .affine c b => packWord 0x20 c b 0 0 0
  | .sbox a w o => packWord 0x30 a w o 0 0
  | .subnib s w o => packWord 0x31 s w o 0 0
  | .srmc s w c => packWord 0x40 s w 0 (cleanupBit c) 0
  | .keyexp k w r => packWord 0x50 k w 0 (roundBit r) 0
  | .addrk s k l => packWord 0x60 s k 0 (layoutBit l) 0
  | .addrkConst s k imm => packWord 0x61 s k 0 0 imm
  | .loadc b imm => packWord 0x62 b 0 0 0 imm

/-- The opcode of a command (R65). -/
def Instr.opcode : Instr → Opcode
  | .flip .. => .flip
  | .cx .. => .cx
  | .ccx .. => .ccx
  | .reset .. => .reset
  | .gfSq .. => .gfSq
  | .gfMul .. => .gfMul
  | .gfInv .. => .gfInv
  | .gfMul4 .. => .gfMul4
  | .affine .. => .affine
  | .sbox .. => .sbox
  | .subnib .. => .subnib
  | .srmc .. => .srmc
  | .keyexp .. => .keyexp
  | .addrk .. => .addrk
  | .addrkConst .. => .addrkConst
  | .loadc .. => .loadc

/-! ### The opcode table's numbering -/

/-- The word of a table row given as a number: its low `nbits` bits, every higher bit zero. Commands are 64-bit
words and not sequences of bytes (R60), so there is no byte order to choose. `none` where the number does not fit
one command word (log entry 13). -/
def tableWord (nbits w : Nat) : Option Word :=
  if w % 2 ^ nbits < 2 ^ 64 then some (BitVec.ofNat 64 (w % 2 ^ nbits)) else none

/-- What the decoder reads from the word `w` of an opcode-table row of `nbits` bits. -/
def decodeTableWord (nbits w : Nat) : Option Instr :=
  match tableWord nbits w with
  | none => none
  | some word =>
    match decode word with
    | .ok i => some i
    | .error _ => none

end Sys2Proof
end

