-- ==== Sys2Proof/Config.lean ====
section
/-! DEFINITION. What an implementation fixes. The spec leaves exactly one value open, NREG (R7, R8), and no
result free (93_implementation_defined.md, Part 1), so there is no free value here. NREG is not a constant of
the model: it is the length of the arena a state holds (log entry 1), so that every statement holds for every
NREG. This file holds the bounds of NREG, its reference value and the reference layout. -/

namespace Sys2Proof
namespace Config

/-- The most registers the 8-bit index fields reach (R7). -/
def maxNReg : Nat := 256

/-- The reference value of NREG (R7). `State.reset` uses it: DESIGN CHOICE, log entry 2. -/
def referenceNReg : Nat := 68

/-- R7: NREG is an integer with 1 <= NREG <= 256. -/
def legalNReg (n : Nat) : Bool := decide (1 ≤ n) && decide (n ≤ maxNReg)

/-- The reference layout of R46: state 0-15, key 16-31, workspace 32-51, output 52-67. A convention: no command
depends on these numbers. -/
def stateBase : RegIx := 0
def keyBase : RegIx := 16
def workspaceBase : RegIx := 32
def outputBase : RegIx := 52

end Config
end Sys2Proof
end

