-- ==== Sys2Proof/Machine/State.lean ====
section
/-! DEFINITION. The state of the core (R20 to R32), the four architectural fault codes (R240), the reasons a step
of the model can stop, and the state after reset (R30, R270). -/

namespace Sys2Proof
namespace Machine

/-- The arena x[0 .. NREG-1]: NREG one-bit registers, each holding 0 (`false`) or 1 (`true`), addressed by integer
offsets (R20, R40). Basis states only (R4; DEDUCED, log entry 9). NREG is the length of the list (DEDUCED, log
entry 1). The core has no memory apart from the arena (R10, R40; log entry 17). -/
abbrev Arena := List Bool

/-- The faults the core takes (R240). They are architectural: taking one writes the fault record and is a next
state of the machine (R241), not a `Fault` of the step. -/
inductive FaultCode where
  | illegalOpcode
  | illegalEncoding
  | operandRange
  | operandOverlap
deriving DecidableEq, Repr

/-- The fault record fr (R24). -/
structure FaultRecord where
  /-- 1 once a fault has been taken -/
  valid : Bool
  /-- the fault code of R240; 0 while `valid` is 0 -/
  code : BitVec 8
  /-- the command index of the faulting command; 0 while `valid` is 0 -/
  ci : Nat
  /-- the faulting command word; 0 while `valid` is 0 -/
  word : Word
deriving DecidableEq, Repr

/-- The fault record before any fault: all zero (R24, R30). -/
def FaultRecord.clear : FaultRecord := { valid := false, code := 0, ci := 0, word := 0 }

end Machine
end Sys2Proof

namespace Sys2Proof.Machine

/-- The machine state (x, gl, ci, fr) of R31, together with the command list of the host (R29). The command list is
configuration and not state in the spec's words; it stands here because `step` is a function of the state alone,
and no step changes it (log entry 3). NREG, the other half of the configuration, is the length of `x`. -/
structure State where
  /-- the register arena (R20) -/
  x : Arena
  /-- the gate log: the primitive words emitted so far, the oldest first (R22) -/
  gl : List Word
  /-- the command index, an unbounded natural (R23) -/
  ci : Nat
  /-- the fault record (R24) -/
  fr : FaultRecord
  /-- the command list the host supplied before the run (R29) -/
  cmds : List Word
deriving DecidableEq, Repr

/-- Why the model's step has no next state. The core's own faults are not here: taking one is a next state (R241).
These two are the two forms of the end of a run, in which no step applies (R32). -/
inductive Fault where
  /-- raised by `step` when fr.valid = 1: the run has ended, faulted, and nothing changes until a reset
  (R32, R246, I16 `stuck`). Safe: the spec gives the core no further step. -/
  | runFaulted
  /-- raised by `step` when fr.valid = 0 and the command list is exhausted: the run has ended, completed (R32).
  Safe: the spec gives the core no further step. -/
  | runCompleted
deriving DecidableEq, Repr

/-- Why the model gives an instruction no meaning. -/
inductive Refusal where
  /-- raised by `exec` for an instruction that has no meaning in the model yet. No arm of `exec` raises it: every
  command of R65 is modelled. Safe: nothing is claimed of such an instruction. -/
  | notModelled (mnemonic : String)
deriving DecidableEq, Repr

/-- NREG: the number of registers of the arena (R7, R20). -/
def State.nreg (s : State) : Nat := s.x.length

/-- The state in which a run starts, for a host that supplies `nreg` registers and the command list `cmds`
(R29, R30): every register 0, the log empty, the command index 0, the fault record all zero. -/
def State.boot (nreg : Nat) (cmds : List Word) : State :=
  { x := List.replicate nreg false, gl := [], ci := 0, fr := FaultRecord.clear, cmds := cmds }

/-- The machine right after reset (R30, R270), with the reference value of NREG (log entry 2) and no command list:
the host supplies the list from outside (R29, log entry 3). -/
def State.reset : State := State.boot Config.referenceNReg []

end Sys2Proof.Machine
end

