-- ==== Sys2Proof/Machine/Flags.lean ====
section
/-! DEFINITION. The core has no flags, condition codes or predicates, and no command reads or writes a status bit
(R25), so there is no flag computation to give. The only status is the fault record: here stand the codes it
records (R240) and what the host reads off it after a run (R32). -/

namespace Sys2Proof.Machine

/-- The value of fr.code for each fault (R240). -/
def FaultCode.byte : FaultCode → BitVec 8
  | .illegalOpcode => 0x01
  | .illegalEncoding => 0x02
  | .operandRange => 0x03
  | .operandOverlap => 0x04

/-- How far a run has come, as the host sees it (R32): it goes on, or it has ended in one of two forms. -/
inductive RunStatus where
  | running
  | completed
  | faulted
deriving DecidableEq, Repr

/-- R32: faulted when fr.valid = 1, completed when fr.valid = 0 and no command is left. -/
def runStatus (s : State) : RunStatus :=
  if s.fr.valid then .faulted else if s.ci < s.cmds.length then .running else .completed

end Sys2Proof.Machine
end

