-- ==== Sys2Proof/Machine/Operands.lean ====
section
/-! DEFINITION. The operand forms: registers, regions and the two operand checks (R41, R72, R75, R76), and the
nibble and 16-bit block views of the arena with their bit order (R9, R42, R43, R64). -/

namespace Sys2Proof.Machine

/-! ### Registers -/

/-- x[i] (R10). Every register the core reads lies below NREG (R245); the value given beyond it is never used
(DESIGN CHOICE,
log entry 6). -/
def readReg (x : Arena) (i : Nat) : Bool := x.getD i false

/-- x[i] <- v (R10). Every register the core writes lies below NREG (R245); a write beyond it changes nothing
(DESIGN CHOICE, log entry 6). -/
def writeReg (x : Arena) (i : Nat) (v : Bool) : Arena := x.set i v

/-! ### Regions and the operand checks -/

/-- reg(b, n): the registers b, b+1, ..., b+n-1 (R41). -/
structure Region where
  base : Nat
  size : Nat
deriving DecidableEq, Repr

/-- The region of `n` registers an operand field names: unsigned, not scaled, not relative (R62). -/
def region (f : RegIx) (n : Nat) : Region := { base := f.toNat, size := n }

/-- b + n <= NREG (R41, R75). -/
def Region.inRange (nreg : Nat) (r : Region) : Bool := decide (r.base + r.size ≤ nreg)

/-- The two regions share no register (R76). -/
def Region.disjoint (r q : Region) : Bool := decide (r.base + r.size ≤ q.base ∨ q.base + q.size ≤ r.base)

/-- The regions are pairwise disjoint (R76). -/
def pairwiseDisjoint : List Region → Bool
  | [] => true
  | r :: rs => rs.all r.disjoint && pairwiseDisjoint rs

/-- The first region, in the order of the fields A, B, C, that reaches past the last register (R75). -/
def firstOutOfRange (nreg : Nat) (rs : List Region) : Option Region :=
  rs.find? fun r => !r.inRange nreg

/-- The operand checks of R32, in the order of R244: the range check on A, B, C, then the overlap check. -/
def checkOperands (nreg : Nat) (rs : List Region) : Option FaultCode :=
  match firstOutOfRange nreg rs with
  | some _ => some .operandRange
  | none => if pairwiseDisjoint rs then none else some .operandOverlap

/-! ### Nibbles -/

/-- nib(b) = x[b+3] : x[b+2] : x[b+1] : x[b], the left operand the most significant (R10, R42). -/
def nib (x : Arena) (b : Nat) : Nibble :=
  BitVec.ofBool (readReg x (b + 3)) ++ BitVec.ofBool (readReg x (b + 2)) ++
    BitVec.ofBool (readReg x (b + 1)) ++ BitVec.ofBool (readReg x b)

/-- nib(b) <- v: v[k] goes to x[b+k] for k = 0..3 (R10). -/
def setNib (x : Arena) (b : Nat) (v : Nibble) : Arena :=
  writeReg (writeReg (writeReg (writeReg x b (v.getLsbD 0)) (b + 1) (v.getLsbD 1)) (b + 2) (v.getLsbD 2))
    (b + 3) (v.getLsbD 3)

/-- nib(b) <- nib(b) ^ v: every command but RESET writes its results so (R15 XOR-accumulate). -/
def xorNib (x : Arena) (b : Nat) (v : Nibble) : Arena := setNib x b (nib x b ^^^ v)

/-! ### Blocks of 16 registers -/

/-- val16(b) = nib(b)*2^12 + nib(b+4)*2^8 + nib(b+8)*2^4 + nib(b+12) (R43). -/
def val16 (x : Arena) (b : Nat) : Block := nib x b ++ nib x (b + 4) ++ nib x (b + 8) ++ nib x (b + 12)

/-- The four nibbles of a 16-bit value, N0 = V[15:12] first (R43). -/
def blockNib (v : Block) (n : Nat) : Nibble := v.extractLsb' (4 * (3 - n)) 4

/-- The 16-bit value V laid into the block at b (R43). -/
def setVal16 (x : Arena) (b : Nat) (v : Block) : Arena :=
  setNib (setNib (setNib (setNib x b (blockNib v 0)) (b + 4) (blockNib v 1)) (b + 8) (blockNib v 2)) (b + 12)
    (blockNib v 3)

/-- The register of a block that holds value bit v: b + 4*(3 - floor(v/4)) + (v mod 4) (R43, R64). -/
def bitReg (b v : Nat) : Nat := b + 4 * (3 - v / 4) + v % 4

/-- The register of character j of a 16-character string: that of value bit 15 - j (R43, R222). -/
def charReg (b j : Nat) : Nat := bitReg b (15 - j)

/-- popcount(v) (R10). -/
def popcount (v : Block) : Nat := ((List.range 16).filter fun k => v.getLsbD k).length

/-- A region all of whose registers are 0 (R280 `clean`). -/
def clean (x : Arena) (b n : Nat) : Bool := (List.range n).all fun k => !readReg x (b + k)

/-! ### Layout maps -/

/-- The physical nibble π(n) that holds logical nibble n (R170). -/
def physicalNibble : Layout → Nat → Nat
  | .ident, n => n
  | .swap13, n => if n = 1 then 3 else if n = 3 then 1 else n

/-- ShiftRows on the layout map: π composed with swap13, which toggles between the two maps (R171). -/
def toggleLayout : Layout → Layout
  | .ident => .swap13
  | .swap13 => .ident

end Sys2Proof.Machine
end

