-- ==== Sys2Proof/Machine/Ops.lean ====
section
/-! DEFINITION. The named operations every command is built from: a primitive on the arena and its log word
(R71, R101 to R104), Emit (R100), fetching a command (R32), taking a fault (R241), the reset event (R270), and
the run of one command (R32). There is no return from a fault (R246): only a reset starts the core again. -/

namespace Sys2Proof.Machine

/-! ### Primitives -/

/-- The effect of a primitive on the arena: R101 FLIP, R102 CX, R103 CCX, R104 RESET. -/
def applyGate (g : Gate) (x : Arena) : Arena :=
  match g with
  | .flip t => writeReg x t (!readReg x t)
  | .cx c t => writeReg x t (readReg x t ^^ readReg x c)
  | .ccx c1 c2 t => writeReg x t (readReg x t ^^ (readReg x c1 && readReg x c2))
  | .reset t => writeReg x t false

/-- The primitive as a command (R71). A register index is below NREG <= 256 here (R245), so it fits its field
(DEDUCED, log entry 7). -/
def gateCommand : Gate → Instr
  | .flip t => .flip (BitVec.ofNat 8 t)
  | .cx c t => .cx (BitVec.ofNat 8 c) (BitVec.ofNat 8 t)
  | .ccx c1 c2 t => .ccx (BitVec.ofNat 8 c1) (BitVec.ofNat 8 c2) (BitVec.ofNat 8 t)
  | .reset t => .reset (BitVec.ofNat 8 t)

/-- The word a primitive leaves in the gate log: its own command word (R22, R71). -/
def gateWord (g : Gate) : Word := encode (gateCommand g)

/-- The primitive a gate-log word names, if it names one (R71). -/
def gateOfWord (w : Word) : Option Gate :=
  match decode w with
  | .ok (.flip t) => some (.flip t.toNat)
  | .ok (.cx c t) => some (.cx c.toNat t.toNat)
  | .ok (.ccx c1 c2 t) => some (.ccx c1.toNat c2.toNat t.toNat)
  | .ok (.reset t) => some (.reset t.toNat)
  | _ => none

/-- Primitives applied to an arena in list order (R11, R51). -/
def applyGates (E : List Gate) (x : Arena) : Arena := E.foldl (fun y g => applyGate g y) x

/-- The words of a gate log applied, in order, to an arena, as the host's external substrate does (R106). A word
that names no primitive has no effect here; the log never holds one (R22). -/
def replayLog (gl : List Word) (x : Arena) : Arena :=
  gl.foldl (fun y w => match gateOfWord w with
    | some g => applyGate g y
    | none => y) x

/-! ### Emission -/

/-- Emit(g): append the word to the gate log, then apply it to the arena (R100). -/
def emit (g : Gate) (s : State) : State :=
  { s with gl := s.gl ++ [gateWord g], x := applyGate g s.x }

/-- `for g in E (in order): Emit(g)` (R32). -/
def emitAll (E : List Gate) (s : State) : State := E.foldl (fun t g => emit g t) s

/-- ci <- ci + 1 (R23, R69). -/
def advance (s : State) : State := { s with ci := s.ci + 1 }

/-! ### Faults and reset -/

/-- raise Fault(code, w): the fault record is written, and nothing else changes (R241). It is a next state of the
machine (DEDUCED, log entry 5). -/
def takeFault (code : FaultCode) (w : Word) (s : State) : State :=
  { s with fr := { valid := true, code := code.byte, ci := s.ci, word := w } }

/-- The fault a decoding error raises (R74). -/
def decodeFault : DecodeError → FaultCode
  | .illegalOpcode => .illegalOpcode
  | .illegalEncoding => .illegalEncoding

/-- The reset event (R270): every piece of state takes its value of R30. NREG and the command list are
configuration, which a reset does not touch (R31; DEDUCED, log entry 14). -/
def resetEvent (s : State) : State := State.boot s.nreg s.cmds

/-! ### Fetching and running a command -/

/-- w <- cmds[ci], if there is one (R32). An index beyond the end of the list, which no run reaches, counts as the
end (DESIGN CHOICE, log entry 8). -/
def fetch (s : State) : Option Word := s.cmds[s.ci]?

/-- The rest of R32 for a decoded command: `w` is its word, `rs` its operand regions in the order A, B, C (R72), `E`
its expansion. It takes the fault of the first failing check before anything is emitted, or emits the whole
expansion and advances (R243). What the regions hold is never checked (R281; DEDUCED, log entry 18). -/
def runCommand (w : Word) (rs : List Region) (E : List Gate) (s : State) : Host.Outcome State Fault Refusal :=
  match checkOperands s.nreg rs with
  | some code => .next (takeFault code w s)
  | none => .next (advance (emitAll E s))

/-- The command list with the word at index `i` replaced; a list too short for that index is first filled up with
zero words. -/
def placeAt (cmds : List Word) (i : Nat) (w : Word) : List Word :=
  cmds.take i ++ List.replicate (i - cmds.length) 0 ++ [w] ++ cmds.drop (i + 1)

/-- The state in which `w` is the next command: it stands at the command index in the command list, and no fault is
recorded, since a faulted run takes no step (R32). Nothing else changes (DESIGN CHOICE, log entry 12). -/
def placeCommand (w : Word) (s : State) : State :=
  { s with
    cmds := placeAt s.cmds s.ci w
    fr := if s.fr.valid then FaultRecord.clear else s.fr }

end Sys2Proof.Machine
end

