-- ==== Sys2Proof/Machine/Sequences.lean ====
section
/-! DEFINITION. The named sub-sequences of primitives that expansions are made of, in the order their rules fix
(R11, 92_eei_decisions.md D5). Bases are natural numbers, as in the rules' own offsets. -/

namespace Sys2Proof.Machine

/-- CX gates from register a+i to register o+j, for the offsets (i, j) listed. -/
def cxPairs (a o : Nat) (l : List (Nat × Nat)) : List Gate := l.map fun p => .cx (a + p.1) (o + p.2)

/-- for k in 0..3: CX(c+k, t+k). -/
def cxNibble (c t : Nat) : List Gate := cxPairs c t [(0, 0), (1, 1), (2, 2), (3, 3)]

/-- for k in 0..3: RESET(t+k). -/
def resetNibble (t : Nat) : List Gate := [.reset t, .reset (t + 1), .reset (t + 2), .reset (t + 3)]

/-- SQ(a, o): 6 CX gates, nib(o) ^= nib(a)^2 (R122). -/
def sqSeq (a o : Nat) : List Gate := cxPairs a o [(0, 0), (2, 0), (2, 1), (1, 2), (3, 2), (3, 3)]

/-- The (control1, control2, target) offsets of R125, in order. -/
def mulTerms : List (Nat × Nat × Nat) :=
  [(0, 0, 0), (1, 3, 0), (2, 2, 0), (3, 1, 0),
   (0, 1, 1), (1, 0, 1), (1, 3, 1), (2, 2, 1), (2, 3, 1), (3, 1, 1), (3, 2, 1),
   (0, 2, 2), (1, 1, 2), (2, 0, 2), (2, 3, 2), (3, 2, 2), (3, 3, 2),
   (0, 3, 3), (1, 2, 3), (2, 1, 3), (3, 0, 3), (3, 3, 3)]

/-- MULSEQ(a, b, c): 22 CCX gates, nib(c) ^= nib(a) * nib(b) (R124, R125). -/
def mulSeq (a b c : Nat) : List Gate := mulTerms.map fun t => .ccx (a + t.1) (b + t.2.1) (c + t.2.2)

/-- AFFSEQ(c, b): 12 CX gates and then 2 FLIPs, nib(b) ^= aff(nib(c)) (R141). -/
def affSeq (c b : Nat) : List Gate :=
  cxPairs c b [(0, 0), (1, 0), (2, 0), (1, 1), (2, 1), (3, 1), (0, 2), (2, 2), (3, 2), (0, 3), (1, 3), (3, 3)] ++
    [.flip b, .flip (b + 3)]

/-- MUL4SEQ(a, o): 6 CX gates, nib(o) ^= 4 * nib(a) (R172). -/
def mul4Seq (a o : Nat) : List Gate := cxPairs a o [(2, 0), (2, 1), (3, 1), (0, 2), (3, 2), (1, 3)]

/-- MUL2SEQ(a, o): 5 CX gates, nib(o) ^= 2 * nib(a) (R174). -/
def mul2Seq (a o : Nat) : List Gate := cxPairs a o [(3, 0), (0, 1), (3, 1), (1, 2), (2, 3)]

/-- MUL8SEQ(a, o): 7 CX gates, nib(o) ^= 8 * nib(a) (R174). -/
def mul8Seq (a o : Nat) : List Gate := cxPairs a o [(1, 0), (1, 1), (2, 1), (2, 2), (3, 2), (0, 3), (3, 3)]

/-- UP of GF_INV, as its blocks: a^2, a^4, a^8 and out1 = a^8 * a^4 in the nibbles w, w+4, w+8, w+12
(R128, R129). -/
def invUp (a w : Nat) : List (List Gate) :=
  [sqSeq a w, sqSeq w (w + 4), sqSeq (w + 4) (w + 8), mulSeq (w + 8) (w + 4) (w + 12)]

/-- UP5 of SBOX, as its blocks: the chain of GF_INV, and the inverse out1 * a^2 in the nibble w+16 (R152, R153). -/
def sboxUp (a w : Nat) : List (List Gate) := invUp a w ++ [mulSeq (w + 12) w (w + 16)]

/-- To uncompute: the blocks in reverse order, each with its gates in their own order (R151). -/
def uncompute (blocks : List (List Gate)) : List Gate := blocks.reverse.flatten

/-- The expansion of GF_INV: UP ++ MULSEQ(w3, w0, o) ++ DOWN (R129). -/
def invSeq (a w o : Nat) : List Gate := (invUp a w).flatten ++ mulSeq (w + 12) w o ++ uncompute (invUp a w)

/-- SBOXSEQ(a, w, o) = UP5 ++ AFFSEQ(w4, o) ++ DOWN5 (R152). -/
def sboxSeq (a w o : Nat) : List Gate := (sboxUp a w).flatten ++ affSeq (w + 16) o ++ uncompute (sboxUp a w)

/-- The characters of a 16-bit immediate that are '1', in string order: the j in 0..15 with imm[15 - j] = 1
(R223, R225). -/
def setChars (imm : Block) : List Nat := (List.range 16).filter fun j => imm.getLsbD (15 - j)

end Sys2Proof.Machine
end

