-- ==== Sys2Proof/Machine/AddRoundKey.lean ====
section
/-! DEFINITION. AddRoundKey in both variants, and the constant loader: ADDRK, ADDRK_CONST, LOADC
(46_addroundkey.md). -/

namespace Sys2Proof.Machine

/-! ### ADDRK s, k [, swap13] (R221) -/

def regionsAddrk (s k : RegIx) (_ : Layout) : List Region := [region s 16, region k 16]

/-- CX(k + 4n + b, s + 4*π(n) + b) for n in 0..3, b in 0..3 (R221). -/
def expandAddrk (s k : RegIx) (layout : Layout) : List Gate :=
  (List.range 4).flatMap fun n => cxNibble (k.toNat + 4 * n) (s.toNat + 4 * physicalNibble layout n)

/-- ADDRK s, k [, swap13]: key nibble n is XORed into physical state nibble π(n) (R221). -/
def execAddrk (s k : RegIx) (layout : Layout) (st : State) : Host.Outcome State Fault Refusal :=
  runCommand (encode (.addrk s k layout)) (regionsAddrk s k layout) (expandAddrk s k layout) st

/-! ### ADDRK_CONST s, k, imm (R223) -/

def regionsAddrkConst (s k : RegIx) (_ : Block) : List Region := [region s 16, region k 16]

/-- For every '1' of the string, in string order: FLIP(kreg(j)), CX(kreg(j), sreg(j)) (R222, R223). -/
def expandAddrkConst (s k : RegIx) (imm : Block) : List Gate :=
  (setChars imm).flatMap fun j => [.flip (charReg k.toNat j), .cx (charReg k.toNat j) (charReg s.toNat j)]

/-- ADDRK_CONST s, k, imm: with the key block clean, val16(k) = imm and val16(s) ^= imm (R223). -/
def execAddrkConst (s k : RegIx) (imm : Block) (st : State) : Host.Outcome State Fault Refusal :=
  runCommand (encode (.addrkConst s k imm)) (regionsAddrkConst s k imm) (expandAddrkConst s k imm) st

/-! ### LOADC b, imm (R225) -/

def regionsLoadc (b : RegIx) (_ : Block) : List Region := [region b 16]

/-- One FLIP for every '1' of the string, in string order (R225). -/
def expandLoadc (b : RegIx) (imm : Block) : List Gate := (setChars imm).map fun j => .flip (charReg b.toNat j)

/-- LOADC b, imm: val16(b) ^= imm (R225). -/
def execLoadc (b : RegIx) (imm : Block) (s : State) : Host.Outcome State Fault Refusal :=
  runCommand (encode (.loadc b imm)) (regionsLoadc b imm) (expandLoadc b imm) s

end Sys2Proof.Machine
end

