-- ==== Sys2Proof/Machine/Affine.lean ====
section
/-! DEFINITION. The S-AES affine transform, AFFINE (42_affine.md). -/

namespace Sys2Proof.Machine

/-! ### AFFINE c, b (R142) -/

def regionsAffine (c b : RegIx) : List Region := [region c 4, region b 4]
def expandAffine (c b : RegIx) : List Gate := affSeq c.toNat b.toNat

/-- AFFINE c, b: nib(b) ^= aff(nib(c)) (R142). -/
def execAffine (c b : RegIx) (s : State) : Host.Outcome State Fault Refusal :=
  runCommand (encode (.affine c b)) (regionsAffine c b) (expandAffine c b) s

end Sys2Proof.Machine
end

