-- ==== Sys2Proof/Machine/FieldArith.lean ====
section
/-! DEFINITION. The field commands GF_SQ, GF_MUL, GF_INV (41_field_arithmetic.md) and GF_MUL4
(44_shiftrows_mixcolumns.md R173). All write their results by XOR-accumulation. -/

namespace Sys2Proof.Machine

/-! ### GF_SQ a, o (R123) -/

def regionsGfSq (a o : RegIx) : List Region := [region a 4, region o 4]
def expandGfSq (a o : RegIx) : List Gate := sqSeq a.toNat o.toNat

/-- GF_SQ a, o: nib(o) ^= nib(a)^2 (R123). -/
def execGfSq (a o : RegIx) (s : State) : Host.Outcome State Fault Refusal :=
  runCommand (encode (.gfSq a o)) (regionsGfSq a o) (expandGfSq a o) s

/-! ### GF_MUL a, b, c (R126) -/

def regionsGfMul (a b c : RegIx) : List Region := [region a 4, region b 4, region c 4]
def expandGfMul (a b c : RegIx) : List Gate := mulSeq a.toNat b.toNat c.toNat

/-- GF_MUL a, b, c: nib(c) ^= nib(a) * nib(b) (R126). -/
def execGfMul (a b c : RegIx) (s : State) : Host.Outcome State Fault Refusal :=
  runCommand (encode (.gfMul a b c)) (regionsGfMul a b c) (expandGfMul a b c) s

/-! ### GF_INV a, w, o (R129) -/

def regionsGfInv (a w o : RegIx) : List Region := [region a 4, region w 16, region o 4]
def expandGfInv (a w o : RegIx) : List Gate := invSeq a.toNat w.toNat o.toNat

/-- GF_INV a, w, o: with the workspace clean, nib(o) ^= inv(nib(a)) (R129). -/
def execGfInv (a w o : RegIx) (s : State) : Host.Outcome State Fault Refusal :=
  runCommand (encode (.gfInv a w o)) (regionsGfInv a w o) (expandGfInv a w o) s

/-! ### GF_MUL4 a, o (R173) -/

def regionsGfMul4 (a o : RegIx) : List Region := [region a 4, region o 4]
def expandGfMul4 (a o : RegIx) : List Gate := mul4Seq a.toNat o.toNat

/-- GF_MUL4 a, o: nib(o) ^= 4 * nib(a) (R173). -/
def execGfMul4 (a o : RegIx) (s : State) : Host.Outcome State Fault Refusal :=
  runCommand (encode (.gfMul4 a o)) (regionsGfMul4 a o) (expandGfMul4 a o) s

end Sys2Proof.Machine
end

