-- ==== Sys2Proof/Machine/KeySchedule.lean ====
section
/-! DEFINITION. The reversible key schedule, KEYEXP (45_key_schedule.md). The classical schedule of the host is in
Machine/ClassicalKeys.lean. -/

namespace Sys2Proof.Machine

/-! ### KEYEXP k, w, r (R191) -/

/-- The flips of the round constant on the nibble K0, first character of the constant first (R190, R191). -/
def rconSeq (k0 : Nat) : Round → List Gate
  | .one => [.flip (k0 + 3)]
  | .two => [.flip (k0 + 1), .flip k0]

def regionsKeyexp (k w : RegIx) (_ : Round) : List Region := [region k 16, region w 20]

/-- R191: the two S-box blocks, the round constant, and the two CX loops, on the nibbles K0 = k, K1 = k+4,
K2 = k+8, K3 = k+12 (R192). -/
def expandKeyexp (k w : RegIx) (r : Round) : List Gate :=
  let k0 := k.toNat
  let k1 := k.toNat + 4
  let k2 := k.toNat + 8
  let k3 := k.toNat + 12
  sboxSeq k3 w.toNat k0 ++ sboxSeq k2 w.toNat k1 ++ rconSeq k0 r ++ cxNibble k0 k2 ++ cxNibble k1 k3

/-- KEYEXP k, w, r: with the workspace clean, the key block goes from round key r - 1 to round key r (R191). -/
def execKeyexp (k w : RegIx) (r : Round) (s : State) : Host.Outcome State Fault Refusal :=
  runCommand (encode (.keyexp k w r)) (regionsKeyexp k w r) (expandKeyexp k w r) s

end Sys2Proof.Machine
end

