-- ==== Sys2Proof/Machine/MixColumns.lean ====
section
/-! DEFINITION. The fused ShiftRows+MixColumns stage, SRMC (44_shiftrows_mixcolumns.md). -/

namespace Sys2Proof.Machine

/-! ### SRMC s, w [, noclean] (R176) -/

/-- Steps 1 and 2 for one column pair: 4*top and 4*bottom into the scratch, then each into the other nibble
(R176, R177). -/
def srmcMix (top bot t1 t2 : Nat) : List Gate :=
  mul4Seq top t1 ++ mul4Seq bot t2 ++ cxNibble t2 top ++ cxNibble t1 bot

/-- Step 3 for one column pair: the scratch driven back to zero from the updated nibbles (R176). -/
def srmcClean (top bot t1 t2 : Nat) : List Gate :=
  mul2Seq top t1 ++ mul8Seq bot t1 ++ mul2Seq bot t2 ++ mul8Seq top t2

/-- One column pair; OPT = 1 leaves step 3 out (R175, R176). -/
def srmcPair (top bot t1 t2 : Nat) (cleanup : Cleanup) : List Gate :=
  srmcMix top bot t1 t2 ++ match cleanup with
    | .clean => srmcClean top bot t1 t2
    | .noclean => []

def regionsSrmc (s w : RegIx) (_ : Cleanup) : List Region := [region s 16, region w 16]

/-- The column pairs (P0, P3) and then (P1, P2), each with its own two scratch nibbles (R175, R176). -/
def expandSrmc (s w : RegIx) (cleanup : Cleanup) : List Gate :=
  srmcPair s.toNat (s.toNat + 12) w.toNat (w.toNat + 4) cleanup ++
    srmcPair (s.toNat + 4) (s.toNat + 8) (w.toNat + 8) (w.toNat + 12) cleanup

/-- SRMC s, w [, noclean]: P0 ^= 4*P3, P3 ^= 4*P0, P1 ^= 4*P2, P2 ^= 4*P1 of the nibbles on entry (R176). -/
def execSrmc (s w : RegIx) (cleanup : Cleanup) (st : State) : Host.Outcome State Fault Refusal :=
  runCommand (encode (.srmc s w cleanup)) (regionsSrmc s w cleanup) (expandSrmc s w cleanup) st

end Sys2Proof.Machine
end

