-- ==== Sys2Proof/Machine/Primitives.lean ====
section
/-! DEFINITION. The primitive commands FLIP, CX, CCX and RESET (40_primitives.md). A primitive executed as a command
is its own one-element expansion (R100). -/

namespace Sys2Proof.Machine

/-! ### FLIP t (R101) -/

def regionsFlip (t : RegIx) : List Region := [region t 1]
def expandFlip (t : RegIx) : List Gate := [.flip t.toNat]

/-- FLIP t: x[t] <- ~x[t] (R101). -/
def execFlip (t : RegIx) (s : State) : Host.Outcome State Fault Refusal :=
  runCommand (encode (.flip t)) (regionsFlip t) (expandFlip t) s

/-! ### CX c, t (R102) -/

def regionsCx (c t : RegIx) : List Region := [region c 1, region t 1]
def expandCx (c t : RegIx) : List Gate := [.cx c.toNat t.toNat]

/-- CX c, t: x[t] <- x[t] ^ x[c] (R102). -/
def execCx (c t : RegIx) (s : State) : Host.Outcome State Fault Refusal :=
  runCommand (encode (.cx c t)) (regionsCx c t) (expandCx c t) s

/-! ### CCX c1, c2, t (R103) -/

def regionsCcx (c1 c2 t : RegIx) : List Region := [region c1 1, region c2 1, region t 1]
def expandCcx (c1 c2 t : RegIx) : List Gate := [.ccx c1.toNat c2.toNat t.toNat]

/-- CCX c1, c2, t: x[t] <- x[t] ^ (x[c1] & x[c2]) (R103). -/
def execCcx (c1 c2 t : RegIx) (s : State) : Host.Outcome State Fault Refusal :=
  runCommand (encode (.ccx c1 c2 t)) (regionsCcx c1 c2 t) (expandCcx c1 c2 t) s

/-! ### RESET t (R104) -/

def regionsReset (t : RegIx) : List Region := [region t 1]
def expandReset (t : RegIx) : List Gate := [.reset t.toNat]

/-- RESET t: x[t] <- 0 (R104). -/
def execReset (t : RegIx) (s : State) : Host.Outcome State Fault Refusal :=
  runCommand (encode (.reset t)) (regionsReset t) (expandReset t) s

end Sys2Proof.Machine
end

