-- ==== Sys2Proof/Machine/SubNibble.lean ====
section
/-! DEFINITION. The S-box and the SubNibble stage, SBOX and SUBNIB (43_subnibble.md). -/

namespace Sys2Proof.Machine

/-! ### SBOX a, w, o (R152) -/

def regionsSbox (a w o : RegIx) : List Region := [region a 4, region w 20, region o 4]
def expandSbox (a w o : RegIx) : List Gate := sboxSeq a.toNat w.toNat o.toNat

/-- SBOX a, w, o: with the workspace clean, nib(o) ^= S(nib(a)) (R152). -/
def execSbox (a w o : RegIx) (s : State) : Host.Outcome State Fault Refusal :=
  runCommand (encode (.sbox a w o)) (regionsSbox a w o) (expandSbox a w o) s

/-! ### SUBNIB s, w, o (R156) -/

/-- One nibble of the stage (R156): SBOXSEQ into affine_out, then the state nibble is reset, rebuilt from
affine_out, and affine_out driven back to zero. -/
def subnibOne (si w oi : Nat) : List Gate := sboxSeq si w oi ++ resetNibble si ++ cxNibble oi si ++ cxNibble si oi

def regionsSubnib (s w o : RegIx) : List Region := [region s 16, region w 20, region o 16]

/-- The four nibbles in the order N0, N1, N2, N3 (R154). -/
def expandSubnib (s w o : RegIx) : List Gate :=
  (List.range 4).flatMap fun i => subnibOne (s.toNat + 4 * i) w.toNat (o.toNat + 4 * i)

/-- SUBNIB s, w, o: with workspace and output clean, every state nibble becomes its S-box image (R156). -/
def execSubnib (s w o : RegIx) (st : State) : Host.Outcome State Fault Refusal :=
  runCommand (encode (.subnib s w o)) (regionsSubnib s w o) (expandSubnib s w o) st

end Sys2Proof.Machine
end

