-- ==== Sys2Proof/Machine/Dispatch.lean ====
section
/-! DEFINITION. The meaning of each command: one arm per constructor of Instr, one direct call each. -/

namespace Sys2Proof.Machine

def exec (i : Instr) (s : State) : Host.Outcome State Fault Refusal :=
  match i with
  | .flip t => Sys2Proof.Machine.execFlip t s
  | .cx c t => Sys2Proof.Machine.execCx c t s
  | .ccx c1 c2 t => Sys2Proof.Machine.execCcx c1 c2 t s
  | .reset t => Sys2Proof.Machine.execReset t s
  | .gfSq a o => Sys2Proof.Machine.execGfSq a o s
  | .gfMul a b c => Sys2Proof.Machine.execGfMul a b c s
  | .gfInv a w o => Sys2Proof.Machine.execGfInv a w o s
  | .gfMul4 a o => Sys2Proof.Machine.execGfMul4 a o s
  | .affine c b => Sys2Proof.Machine.execAffine c b s
  | .sbox a w o => Sys2Proof.Machine.execSbox a w o s
  | .subnib b w o => Sys2Proof.Machine.execSubnib b w o s
  | .srmc b w c => Sys2Proof.Machine.execSrmc b w c s
  | .keyexp k w r => Sys2Proof.Machine.execKeyexp k w r s
  | .addrk b k l => Sys2Proof.Machine.execAddrk b k l s
  | .addrkConst b k imm => Sys2Proof.Machine.execAddrkConst b k imm s
  | .loadc b imm => Sys2Proof.Machine.execLoadc b imm s

end Sys2Proof.Machine
end

