-- ==== Sys2Proof/Machine/Step.lean ====
section
/-! DEFINITION. One step of the core (R32), and the placing of one command where the next step fetches it. -/

namespace Sys2Proof.Machine

/-- R32. Where the run has ended no step applies: a named stop (log entry 4). Otherwise the command at the command
index is fetched and decoded, and runs; a word that does not decode takes its fault, a next state (R241). -/
def step (s : State) : Host.Outcome State Fault Refusal :=
  if s.fr.valid then .fault .runFaulted
  else
    match fetch s with
    | none => .fault .runCompleted
    | some w =>
      match decode w with
      | .ok i => exec i s
      | .error e => .next (takeFault (decodeFault e) w s)

/-- `s` with the instruction of an opcode-table row, given as the number `w` of `nbits` bits, as the next command.
It stands for the host's loading of the command list (R29, log entry 12). -/
def State.withFetchWord (s : State) (nbits w : Nat) : State :=
  placeCommand (BitVec.ofNat 64 (w % 2 ^ nbits)) s

end Sys2Proof.Machine
end

