-- ==== Sys2Proof/Machine/Values.lean ====
section
/-! DEFINITION. The value-level functions of the rules: GF(2^4) arithmetic (R120, R127), the affine map (R140), the
S-box (R150), the constant multiples (R172, R174) and the round constants (R190). No command calls them: a command
is its expansion (R12). They are what the closed forms say an expansion computes, and what the classical key
schedule is made of. -/

namespace Sys2Proof.Machine

/-- The product of two 4-bit polynomials over GF(2), not reduced: bit k is the XOR of the terms ai*bj with
i + j = k (R120). -/
def polyMul (a b : Nibble) : BitVec 7 :=
  (List.range 4).foldl (fun p i => if a.getLsbD i then p ^^^ (b.setWidth 7 <<< i) else p) 0

/-- Reduction modulo x^4 + x + 1: x^4 = x + 1, x^5 = x^2 + x, x^6 = x^3 + x^2 (R120). -/
def polyReduce (p : BitVec 7) : Nibble :=
  p.setWidth 4 ^^^ (if p.getLsbD 4 then 0x3 else 0) ^^^ (if p.getLsbD 5 then 0x6 else 0) ^^^
    (if p.getLsbD 6 then 0xC else 0)

/-- gmul(a, b): the product in GF(2^4) with modulus x^4 + x + 1 (R120). -/
def gmul (a b : Nibble) : Nibble := polyReduce (polyMul a b)

/-- a^2 (R122). -/
def gsq (a : Nibble) : Nibble := gmul a a

/-- inv(a) = a^14 = gmul(gmul(a^8, a^4), a^2), which maps 0 to 0 (R127). -/
def ginv (a : Nibble) : Nibble := gmul (gmul (gsq (gsq (gsq a))) (gsq (gsq a))) (gsq a)

/-- The affine map, bit 0 the least significant (R140). -/
def aff (c : Nibble) : Nibble :=
  let c0 := c.getLsbD 0
  let c1 := c.getLsbD 1
  let c2 := c.getLsbD 2
  let c3 := c.getLsbD 3
  BitVec.ofBool (c0 ^^ c1 ^^ c3 ^^ true) ++ BitVec.ofBool (c0 ^^ c2 ^^ c3) ++ BitVec.ofBool (c1 ^^ c2 ^^ c3) ++
    BitVec.ofBool (c0 ^^ c1 ^^ c2 ^^ true)

/-- The S-box table, indexed by the input nibble 0 to 15 (R150). -/
def sboxTable : List Nibble :=
  [0x9, 0x4, 0xA, 0xB, 0xD, 0x1, 0x8, 0x5, 0x6, 0x2, 0x0, 0x3, 0xC, 0xE, 0xF, 0x7]

/-- S(a) (R150). -/
def sboxVal (a : Nibble) : Nibble := sboxTable.getD a.toNat 0

/-- RCON(1) = 0x80 and RCON(2) = 0x30 (R190). -/
def rcon : Round → Byte
  | .one => 0x80
  | .two => 0x30

/-- The high nibble of the round constant, the only one that is not zero (R190, R191). -/
def rconNib (r : Round) : Nibble := (rcon r).extractLsb' 4 4

/-! ### Logical states (R170, R171, R176) -/

/-- The four logical nibbles of an S-AES state: L0 = S00, L1 = S10, L2 = S01, L3 = S11 (R44, R170). -/
structure Quad where
  l0 : Nibble
  l1 : Nibble
  l2 : Nibble
  l3 : Nibble
deriving DecidableEq, Repr

/-- The logical state a block holds under a layout map: Ln stands in the physical nibble π(n) (R170). -/
def logicalState (x : Arena) (s : Nat) (layout : Layout) : Quad :=
  { l0 := nib x (s + 4 * physicalNibble layout 0)
    l1 := nib x (s + 4 * physicalNibble layout 1)
    l2 := nib x (s + 4 * physicalNibble layout 2)
    l3 := nib x (s + 4 * physicalNibble layout 3) }

/-- S-AES ShiftRows exchanges S10 and S11 (R171). -/
def shiftRows (q : Quad) : Quad := { l0 := q.l0, l1 := q.l3, l2 := q.l2, l3 := q.l1 }

/-- MixColumns: the matrix [[1,4],[4,1]] on the columns (L0, L1) and (L2, L3) (R44, R176). -/
def mixColumns (q : Quad) : Quad :=
  { l0 := q.l0 ^^^ gmul 4 q.l1
    l1 := q.l1 ^^^ gmul 4 q.l0
    l2 := q.l2 ^^^ gmul 4 q.l3
    l3 := q.l3 ^^^ gmul 4 q.l2 }

/-- AddRoundKey on the logical state: Ln takes key nibble Kn (R220). -/
def addKey (q : Quad) (k : Block) : Quad :=
  { l0 := q.l0 ^^^ blockNib k 0
    l1 := q.l1 ^^^ blockNib k 1
    l2 := q.l2 ^^^ blockNib k 2
    l3 := q.l3 ^^^ blockNib k 3 }

end Sys2Proof.Machine
end

