-- ==== Sys2Proof/Machine/ClassicalKeys.lean ====
section
/-! DEFINITION. The host functions of 45_key_schedule.md: PARSE16 and its validation error (R200, R206), and the
classical (integer) key schedule (R201 to R205). They are pure, touch no core state, and are no commands. A string
is the list of its characters (DEDUCED, log entry 15). -/

namespace Sys2Proof.Machine

/-- The error result of the host functions (R206). It is not a fault of the core. -/
inductive HostError where
  | inputValidation
deriving DecidableEq, Repr

/-! ### PARSE16 (R200) -/

/-- Every U+0020 removed, wherever it occurs, and no other white space (R200). -/
def stripSpaces (str : List Char) : List Char := str.filter fun c => c != ' '

/-- The value of a string of '0' and '1': the sum over j of 2^(15-j) for the characters that are '1' (R200). -/
def bitsValue (t : List Char) : Block :=
  BitVec.ofNat 16 (((List.range 16).map fun j => if t.getD j '0' = '1' then 2 ^ (15 - j) else 0).sum)

/-- PARSE16(str) (R200). -/
def parse16 (str : List Char) : Except HostError Block :=
  let t := stripSpaces str
  if t.length ≠ 16 then .error .inputValidation
  else if t.any (fun c => c != '0' && c != '1') then .error .inputValidation
  else .ok (bitsValue t)

/-- BITS16(v): character j is '1' exactly when bit 15 - j of v is 1 (R205). -/
def bits16 (v : Block) : List Char := (List.range 16).map fun j => if v.getLsbD (15 - j) then '1' else '0'

/-! ### The classical schedule -/

/-- The high nibble x[7:4] of a byte. -/
def hiNib (x : Byte) : Nibble := x.extractLsb' 4 4

/-- The low nibble x[3:0] of a byte. -/
def loNib (x : Byte) : Nibble := x.extractLsb' 0 4

/-- SubNib8(x) = S(x[7:4]) * 16 + S(x[3:0]) (R201). -/
def subNib8 (x : Byte) : Byte := sboxVal (hiNib x) ++ sboxVal (loNib x)

/-- RotNib8(x) = x[3:0] * 16 + x[7:4] (R202). -/
def rotNib8 (x : Byte) : Byte := loNib x ++ hiNib x

/-- One step of the byte recurrence: from B[i-2], B[i-1] to B[i], B[i+1], for i = 2r (R203). -/
def scheduleStep (r : Round) (b : Byte × Byte) : Byte × Byte :=
  let next := b.1 ^^^ rcon r ^^^ subNib8 (rotNib8 b.2)
  (next, b.2 ^^^ next)

/-- A round key from its two bytes: B * 256 + B' (R204). -/
def joinKey (b : Byte × Byte) : Block := b.1 ++ b.2

/-- round_keys(K): the round keys of rounds 0, 1 and 2 (R203, R204). -/
def roundKeys (k : Block) : List Block :=
  let b01 : Byte × Byte := (k.extractLsb' 8 8, k.extractLsb' 0 8)
  let b23 := scheduleStep .one b01
  let b45 := scheduleStep .two b23
  [joinKey b01, joinKey b23, joinKey b45]

/-- generate_round_keys(str) (R205). -/
def generateRoundKeys (str : List Char) : Except HostError (List (List Char)) :=
  match parse16 str with
  | .error e => .error e
  | .ok k => .ok ((roundKeys k).map bits16)

end Sys2Proof.Machine
end

