-- ==== Sys2Proof/Machine/Assembler.lean ====
section
/-! DEFINITION. The assembler syntax of R73, the pseudo-instruction SHIFTROWS of R77, and the layout map the
assembler keeps (R170, R171, R178). The assembler runs on the host, before the run, and is no agent of the core.
Lexical points R73 leaves open are DESIGN CHOICE, log entry 10. One source has one layout map (DEDUCED, log entry
11). -/

namespace Sys2Proof.Machine

/-- Why a line is no command. -/
inductive AsmError where
  | unknownMnemonic
  | operandCount      -- too many or too few operands
  | badRegister       -- no decimal or 0x number from 0 to 255
  | badOption         -- no keyword or round number the command has
  | badImmediate      -- neither 0xHHHH nor a quoted bit string
  | badBitString      -- a bit string that PARSE16 refuses (R206)
deriving DecidableEq, Repr

/-- What a line of source stands for: a command word, or SHIFTROWS, which emits no word (R77). -/
inductive AsmItem where
  | command (i : Instr)
  | shiftRows
deriving DecidableEq, Repr

/-- The spelling of each opcode (R65). -/
def mnemonicOf : Opcode → List Char
  | .flip => "FLIP".toList
  | .cx => "CX".toList
  | .ccx => "CCX".toList
  | .reset => "RESET".toList
  | .gfSq => "GF_SQ".toList
  | .gfMul => "GF_MUL".toList
  | .gfInv => "GF_INV".toList
  | .gfMul4 => "GF_MUL4".toList
  | .affine => "AFFINE".toList
  | .sbox => "SBOX".toList
  | .subnib => "SUBNIB".toList
  | .srmc => "SRMC".toList
  | .keyexp => "KEYEXP".toList
  | .addrk => "ADDRK".toList
  | .addrkConst => "ADDRK_CONST".toList
  | .loadc => "LOADC".toList

/-! ### Splitting a line -/

/-- White space inside a line: a space or a tab. -/
def isBlank (c : Char) : Bool := c == ' ' || c == '\t'

/-- White space removed at both ends. -/
def trim (l : List Char) : List Char := ((l.dropWhile isBlank).reverse.dropWhile isBlank).reverse

/-- `;` starts a comment (R73). -/
def stripComment (l : List Char) : List Char := l.takeWhile fun c => c != ';'

/-- The parts of a list between commas. -/
def splitCommas : List Char → List (List Char)
  | [] => [[]]
  | c :: cs =>
    if c == ',' then [] :: splitCommas cs
    else
      match splitCommas cs with
      | [] => [[c]]
      | p :: ps => (c :: p) :: ps

/-- The operands after the mnemonic, separated by commas; none where nothing follows it (R73). -/
def operandsOf (rest : List Char) : List (List Char) :=
  if (trim rest).isEmpty then [] else (splitCommas rest).map trim

/-! ### Operands -/

/-- The value of a decimal digit. -/
def decDigit (c : Char) : Option Nat :=
  if '0'.toNat ≤ c.toNat ∧ c.toNat ≤ '9'.toNat then some (c.toNat - '0'.toNat) else none

/-- The value of a hexadecimal digit. -/
def hexDigit (c : Char) : Option Nat :=
  if 'a'.toNat ≤ c.toNat ∧ c.toNat ≤ 'f'.toNat then some (c.toNat - 'a'.toNat + 10)
  else if 'A'.toNat ≤ c.toNat ∧ c.toNat ≤ 'F'.toNat then some (c.toNat - 'A'.toNat + 10)
  else decDigit c

/-- Digits read in a base, the most significant first. -/
def readDigits (base : Nat) (digit : Char → Option Nat) : List Char → Option Nat
  | [] => none
  | cs => cs.foldl (fun acc c => match acc, digit c with
      | some v, some d => some (v * base + d)
      | _, _ => none) (some 0)

/-- A decimal or 0x-prefixed hexadecimal number. -/
def readNumber (t : List Char) : Option Nat :=
  match t with
  | '0' :: 'x' :: ds => readDigits 16 hexDigit ds
  | ds => readDigits 10 decDigit ds

/-- A register operand: an integer from 0 to 255 (R73). -/
def readRegister (t : List Char) : Except AsmError RegIx :=
  match readNumber t with
  | some n => if n ≤ 255 then .ok (BitVec.ofNat 8 n) else .error .badRegister
  | none => .error .badRegister

/-- The double quote. -/
def quoteChar : Char := Char.ofNat 0x22

/-- The text between two double quotes. -/
def unquote (t : List Char) : Option (List Char) :=
  match t with
  | [] => none
  | c :: cs => if c = quoteChar ∧ cs.getLast? = some quoteChar then some cs.dropLast else none

/-- An immediate: 0xHHHH, or a double-quoted bit string parsed by PARSE16 (R73, R200). -/
def readImmediate (t : List Char) : Except AsmError Block :=
  match unquote t with
  | some body =>
    match parse16 body with
    | .ok v => .ok v
    | .error _ => .error .badBitString
  | none =>
    match t with
    | '0' :: 'x' :: ds =>
      match ds.length == 4, readDigits 16 hexDigit ds with
      | true, some n => .ok (BitVec.ofNat 16 n)
      | _, _ => .error .badImmediate
    | _ => .error .badImmediate

/-- SRMC's trailing keyword (R73). -/
def readCleanup (t : List Char) : Except AsmError Cleanup :=
  if t == "noclean".toList then .ok .noclean else .error .badOption

/-- ADDRK's trailing keyword (R73). -/
def readLayout (t : List Char) : Except AsmError Layout :=
  if t == "swap13".toList then .ok .swap13 else .error .badOption

/-- KEYEXP's round number (R73). -/
def readRound (t : List Char) : Except AsmError Round :=
  if t == "1".toList then .ok .one else if t == "2".toList then .ok .two else .error .badOption

/-! ### Commands by the shape of their operands -/

def with1 (mk : RegIx → Instr) : List (List Char) → Except AsmError Instr
  | [a] => do return mk (← readRegister a)
  | _ => .error .operandCount

def with2 (mk : RegIx → RegIx → Instr) : List (List Char) → Except AsmError Instr
  | [a, b] => do return mk (← readRegister a) (← readRegister b)
  | _ => .error .operandCount

def with3 (mk : RegIx → RegIx → RegIx → Instr) : List (List Char) → Except AsmError Instr
  | [a, b, c] => do return mk (← readRegister a) (← readRegister b) (← readRegister c)
  | _ => .error .operandCount

/-- The command of a mnemonic and its operands, in the order A, B, C, with the option or the immediate last; an
absent keyword means OPT = 0 for SRMC and ADDRK, and KEYEXP requires its round number (R73). -/
def commandOf (o : Opcode) (ops : List (List Char)) : Except AsmError Instr :=
  match o with
  | .flip => with1 .flip ops
  | .cx => with2 .cx ops
  | .ccx => with3 .ccx ops
  | .reset => with1 .reset ops
  | .gfSq => with2 .gfSq ops
  | .gfMul => with3 .gfMul ops
  | .gfInv => with3 .gfInv ops
  | .gfMul4 => with2 .gfMul4 ops
  | .affine => with2 .affine ops
  | .sbox => with3 .sbox ops
  | .subnib => with3 .subnib ops
  | .srmc =>
    match ops with
    | [s, w, t] => do return .srmc (← readRegister s) (← readRegister w) (← readCleanup t)
    | _ => with2 (fun s w => .srmc s w .clean) ops
  | .keyexp =>
    match ops with
    | [k, w, t] => do return .keyexp (← readRegister k) (← readRegister w) (← readRound t)
    | _ => .error .operandCount
  | .addrk =>
    match ops with
    | [s, k, t] => do return .addrk (← readRegister s) (← readRegister k) (← readLayout t)
    | _ => with2 (fun s k => .addrk s k .ident) ops
  | .addrkConst =>
    match ops with
    | [s, k, t] => do return .addrkConst (← readRegister s) (← readRegister k) (← readImmediate t)
    | _ => .error .operandCount
  | .loadc =>
    match ops with
    | [b, t] => do return .loadc (← readRegister b) (← readImmediate t)
    | _ => .error .operandCount

/-- One line of source: nothing, a command, or SHIFTROWS (R73, R77). -/
def assembleLine (line : List Char) : Except AsmError (Option AsmItem) :=
  let t := trim (stripComment line)
  let name := t.takeWhile fun c => !isBlank c
  let ops := operandsOf (t.dropWhile fun c => !isBlank c)
  if t.isEmpty then .ok none
  else if name == "SHIFTROWS".toList then
    if ops.isEmpty then .ok (some .shiftRows) else .error .operandCount
  else
    match allOpcodes.find? fun o => mnemonicOf o == name with
    | none => .error .unknownMnemonic
    | some o => do return some (.command (← commandOf o ops))

/-! ### The layout map (R170, R171, R178) -/

/-- The layout map after an item of source: SRMC leaves swap13, SHIFTROWS toggles, and nothing else changes it
(R171, R176, R178). -/
def layoutAfter (item : AsmItem) (l : Layout) : Layout :=
  match item with
  | .shiftRows => toggleLayout l
  | .command (.srmc _ _ _) => .swap13
  | .command _ => l

/-- The words of a list of items: SHIFTROWS emits none (R77). -/
def itemWords : List AsmItem → List Word
  | [] => []
  | .shiftRows :: rest => itemWords rest
  | .command i :: rest => encode i :: itemWords rest

/-- The layout map after a list of items; it starts as the identity (R170). -/
def layoutOfItems (items : List AsmItem) : Layout := items.foldl (fun l it => layoutAfter it l) .ident

/-- The items of the lines of a source, up to the first error. -/
def assembleItems : List (List Char) → Except AsmError (List AsmItem)
  | [] => .ok []
  | line :: rest => do
    let item ← assembleLine line
    let items ← assembleItems rest
    return item.toList ++ items

/-- The command list of a source and the layout map at its end (R73, R77, R170). -/
def assemble (lines : List (List Char)) : Except AsmError (List Word × Layout) := do
  let items ← assembleItems lines
  return (itemWords items, layoutOfItems items)

end Sys2Proof.Machine
end

