-- ==== Sys2Proof/Machine/RoundOrder.lean ====
section
/-! DEFINITION. The round order of 70_reset_and_hazards.md R272 as the items of a source (R73), for any bases, with
the layout map it goes through (R178). The core's commands do not depend on it. -/

namespace Sys2Proof.Machine

/-- R272: ARK(K0); round 1 SUBNIB, KEYEXP, SRMC, ADDRK; round 2 SUBNIB, KEYEXP, SHIFTROWS, ADDRK. The state block
is at `s`, the key block at `k`, the workspace at `w` and the output region at `o`. -/
def roundOrder (s k w o : RegIx) (plaintext key : Block) : List AsmItem :=
  [.command (.loadc s plaintext),
   .command (.addrkConst s k key),
   .command (.subnib s w o),
   .command (.keyexp k w .one),
   .command (.srmc s w .clean),
   .command (.addrk s k .swap13),
   .command (.subnib s w o),
   .command (.keyexp k w .two),
   .shiftRows,
   .command (.addrk s k .ident)]

/-- The other first step R272 allows: the key loaded by LOADC and added by ADDRK. -/
def roundOrderLoaded (s k w o : RegIx) (plaintext key : Block) : List AsmItem :=
  [.command (.loadc s plaintext), .command (.loadc k key), .command (.addrk s k .ident)] ++
    (roundOrder s k w o plaintext key).drop 2

/-- The command list of R272 in the reference layout (R46). -/
def encryptionCommands (plaintext key : Block) : List Word :=
  itemWords (roundOrder Config.stateBase Config.keyBase Config.workspaceBase Config.outputBase plaintext key)

end Sys2Proof.Machine
end

