-- ==== Sys2Proof/Machine/Expansion.lean ====
section
/-! DEFINITION. `expand(d)` and the operand regions of R32 and R72 as one table each, over the definitions the
meanings use: what statements about every command are written with. -/

namespace Sys2Proof.Machine

/-- E <- expand(d): the expansion of a command (R11, R32). -/
def expand : Instr → List Gate
  | .flip t => expandFlip t
  | .cx c t => expandCx c t
  | .ccx c1 c2 t => expandCcx c1 c2 t
  | .reset t => expandReset t
  | .gfSq a o => expandGfSq a o
  | .gfMul a b c => expandGfMul a b c
  | .gfInv a w o => expandGfInv a w o
  | .gfMul4 a o => expandGfMul4 a o
  | .affine c b => expandAffine c b
  | .sbox a w o => expandSbox a w o
  | .subnib s w o => expandSubnib s w o
  | .srmc s w c => expandSrmc s w c
  | .keyexp k w r => expandKeyexp k w r
  | .addrk s k l => expandAddrk s k l
  | .addrkConst s k imm => expandAddrkConst s k imm
  | .loadc b imm => expandLoadc b imm

/-- The operand regions of a command, in the order of the fields A, B, C (R72). -/
def operandRegions : Instr → List Region
  | .flip t => regionsFlip t
  | .cx c t => regionsCx c t
  | .ccx c1 c2 t => regionsCcx c1 c2 t
  | .reset t => regionsReset t
  | .gfSq a o => regionsGfSq a o
  | .gfMul a b c => regionsGfMul a b c
  | .gfInv a w o => regionsGfInv a w o
  | .gfMul4 a o => regionsGfMul4 a o
  | .affine c b => regionsAffine c b
  | .sbox a w o => regionsSbox a w o
  | .subnib s w o => regionsSubnib s w o
  | .srmc s w c => regionsSrmc s w c
  | .keyexp k w r => regionsKeyexp k w r
  | .addrk s k l => regionsAddrk s k l
  | .addrkConst s k imm => regionsAddrkConst s k imm
  | .loadc b imm => regionsLoadc b imm

/-! ### Cost (R288) -/

/-- How many gates of each kind a list holds. -/
structure GateCount where
  cx : Nat
  ccx : Nat
  flip : Nat
  reset : Nat
deriving DecidableEq, Repr

/-- A list's gates counted by kind (R288). -/
def countGates : List Gate → GateCount
  | [] => ⟨0, 0, 0, 0⟩
  | g :: E =>
    let n := countGates E
    match g with
    | .cx .. => { n with cx := n.cx + 1 }
    | .ccx .. => { n with ccx := n.ccx + 1 }
    | .flip .. => { n with flip := n.flip + 1 }
    | .reset .. => { n with reset := n.reset + 1 }

/-! ### What a primitive touches -/

/-- The register a primitive writes. -/
def gateTarget : Gate → Nat
  | .flip t => t
  | .cx _ t => t
  | .ccx _ _ t => t
  | .reset t => t

/-- The registers a primitive reads as controls. -/
def gateControls : Gate → List Nat
  | .flip _ => []
  | .cx c _ => [c]
  | .ccx c1 c2 _ => [c1, c2]
  | .reset _ => []

/-- The primitive is a valid command on an arena of `nreg` registers: its operands lie below NREG and are pairwise
distinct (R101 to R104, R245). -/
def gateValid (nreg : Nat) (g : Gate) : Bool :=
  (gateTarget g :: gateControls g).all (fun i => decide (i < nreg)) && decide (gateTarget g :: gateControls g).Nodup

/-- The primitive is RESET, the only one that is not reversible (R104, R105). -/
def isReset : Gate → Bool
  | .reset _ => true
  | _ => false

end Sys2Proof.Machine
end

