-- ==== Sys2Proof/WellFormed.lean ====
section
/-! DEFINITION. Which commands may run on an arena of NREG registers, written out command by command from the
region sizes of R72: every used operand region in range (R75) and the regions pairwise disjoint (R76). The core's
own check, in the order in which it is made, is `Machine.checkOperands` (Machine/Operands.lean). -/

namespace Sys2Proof

/-- The region of `n` registers at base `b` lies below NREG (R41, R75). -/
def fits (nreg : Nat) (b : RegIx) (n : Nat) : Bool := decide (b.toNat + n ≤ nreg)

/-- The regions of `m` registers at `a` and of `n` registers at `b` share no register (R76). -/
def apart (a : RegIx) (m : Nat) (b : RegIx) (n : Nat) : Bool :=
  decide (a.toNat + m ≤ b.toNat ∨ b.toNat + n ≤ a.toNat)

/-- Three regions that are pairwise disjoint (R76). -/
def apart3 (a : RegIx) (m : Nat) (b : RegIx) (n : Nat) (c : RegIx) (p : Nat) : Bool :=
  apart a m b n && apart a m c p && apart b n c p

/-- R75 with the sizes of R72: every used operand field F of size n has F + n <= NREG. -/
def Instr.inRange (nreg : Nat) : Instr → Bool
  | .flip t => fits nreg t 1
  | .cx c t => fits nreg c 1 && fits nreg t 1
  | .ccx c1 c2 t => fits nreg c1 1 && fits nreg c2 1 && fits nreg t 1
  | .reset t => fits nreg t 1
  | .gfSq a o => fits nreg a 4 && fits nreg o 4
  | .gfMul a b c => fits nreg a 4 && fits nreg b 4 && fits nreg c 4
  | .gfInv a w o => fits nreg a 4 && fits nreg w 16 && fits nreg o 4
  | .gfMul4 a o => fits nreg a 4 && fits nreg o 4
  | .affine c b => fits nreg c 4 && fits nreg b 4
  | .sbox a w o => fits nreg a 4 && fits nreg w 20 && fits nreg o 4
  | .subnib s w o => fits nreg s 16 && fits nreg w 20 && fits nreg o 16
  | .srmc s w _ => fits nreg s 16 && fits nreg w 16
  | .keyexp k w _ => fits nreg k 16 && fits nreg w 20
  | .addrk s k _ => fits nreg s 16 && fits nreg k 16
  | .addrkConst s k _ => fits nreg s 16 && fits nreg k 16
  | .loadc b _ => fits nreg b 16

/-- R76 with the sizes of R72: the regions of the used operand fields are pairwise disjoint. -/
def Instr.disjoint : Instr → Bool
  | .flip _ => true
  | .cx c t => apart c 1 t 1
  | .ccx c1 c2 t => apart3 c1 1 c2 1 t 1
  | .reset _ => true
  | .gfSq a o => apart a 4 o 4
  | .gfMul a b c => apart3 a 4 b 4 c 4
  | .gfInv a w o => apart3 a 4 w 16 o 4
  | .gfMul4 a o => apart a 4 o 4
  | .affine c b => apart c 4 b 4
  | .sbox a w o => apart3 a 4 w 20 o 4
  | .subnib s w o => apart3 s 16 w 20 o 16
  | .srmc s w _ => apart s 16 w 16
  | .keyexp k w _ => apart k 16 w 20
  | .addrk s k _ => apart s 16 k 16
  | .addrkConst s k _ => apart s 16 k 16
  | .loadc _ _ => true

/-- The command passes both operand checks on an arena of `nreg` registers. -/
def Instr.wellFormed (nreg : Nat) (i : Instr) : Bool := i.inRange nreg && i.disjoint

end Sys2Proof
end

