-- ==== Sys2Proof/Safety.lean ====
section
/-! DEFINITION. What counts as a sound state of the core and as a run that kept the contracts: the invariant of every
reachable state, and the cleanliness table of R280. -/

namespace Sys2Proof
namespace Machine

/-! ### The invariant -/

/-- The fault record holds one of its legal values: all zero while no fault has been taken (R24), and else a code of
R240 with the index and the word of the command at the command index (R241). -/
def faultRecordLegal (s : State) : Bool :=
  if s.fr.valid then
    decide (s.fr.code ∈ [0x01#8, 0x02#8, 0x03#8, 0x04#8]) && decide (s.fr.ci = s.ci) &&
      decide (fetch s = some s.fr.word)
  else decide (s.fr = FaultRecord.clear)

/-- Every word of the log is a primitive with operands below NREG and pairwise distinct (R22, R71, R245). -/
def logLegal (s : State) : Bool :=
  s.gl.all fun w => match gateOfWord w with
    | some g => gateValid s.nreg g
    | none => false

/-- The arena is what the log makes of the reset arena (R106). -/
def arenaReplays (s : State) : Bool := decide (replayLog s.gl (List.replicate s.nreg false) = s.x)

/-- What holds of every state a run reaches: NREG is legal (R7), the command index has not passed the end of the
command list (R23, R32), and the fault record, the log and the arena are as said above. -/
def Sound (s : State) : Prop :=
  Config.legalNReg s.nreg = true ∧ s.ci ≤ s.cmds.length ∧ faultRecordLegal s = true ∧ logLegal s = true ∧
    arenaReplays s = true

/-! ### A command that completes -/

/-- `s` after the command `i` completed with the arena `y`: the whole expansion stands in the log, in order, the
command index is one further (R32), and the fault record and the command list are as before. -/
def afterCommand (i : Instr) (y : Arena) (s : State) : State :=
  { s with x := y, gl := s.gl ++ (expand i).map gateWord, ci := s.ci + 1 }

/-- `s` after the fault `code` was raised for the word `w`: only the fault record changed (R241). -/
def afterFault (code : BitVec 8) (w : Word) (s : State) : State :=
  { s with fr := { valid := true, code := code, ci := s.ci, word := w } }

/-- The core can take a step: no fault is recorded (R32). -/
def ready (s : State) : Bool := !s.fr.valid

/-! ### The contracts of R280 -/

/-- The regions a command's contract needs clean on entry (R280). -/
def needsClean : Instr → List Region
  | .flip _ => []
  | .cx _ _ => []
  | .ccx _ _ _ => []
  | .reset _ => []
  | .gfSq _ o => [region o 4]
  | .gfMul _ _ c => [region c 4]
  | .gfInv _ w o => [region w 16, region o 4]
  | .gfMul4 _ o => [region o 4]
  | .affine _ b => [region b 4]
  | .sbox _ w o => [region w 20, region o 4]
  | .subnib _ w o => [region w 20, region o 16]
  | .srmc _ w _ => [region w 16]
  | .keyexp _ w _ => [region w 20]
  | .addrk _ _ _ => []
  | .addrkConst _ k _ => [region k 16]
  | .loadc b _ => [region b 16]

/-- The regions a command leaves clean when its contract was kept (R280). -/
def leavesClean : Instr → List Region
  | .gfInv _ w _ => [region w 16]
  | .sbox _ w _ => [region w 20]
  | .subnib _ w o => [region w 20, region o 16]
  | .srmc _ w .clean => [region w 16]
  | .keyexp _ w _ => [region w 20]
  | .srmc _ _ .noclean => []
  | .flip _ => []
  | .cx _ _ => []
  | .ccx _ _ _ => []
  | .reset _ => []
  | .gfSq _ _ => []
  | .gfMul _ _ _ => []
  | .gfMul4 _ _ => []
  | .affine _ _ => []
  | .addrk _ _ _ => []
  | .addrkConst _ _ _ => []
  | .loadc _ _ => []

/-- Every region listed is clean (R280). -/
def allClean (x : Arena) (rs : List Region) : Bool := rs.all fun r => clean x r.base r.size

/-- Whether running a command's primitives in reverse order undoes it (R287). -/
def reversible (i : Instr) : Bool :=
  match i with
  | .reset _ => false
  | .subnib _ _ _ => false
  | .flip _ => true
  | .cx _ _ => true
  | .ccx _ _ _ => true
  | .gfSq _ _ => true
  | .gfMul _ _ _ => true
  | .gfInv _ _ _ => true
  | .gfMul4 _ _ => true
  | .affine _ _ => true
  | .sbox _ _ _ => true
  | .srmc _ _ _ => true
  | .keyexp _ _ _ => true
  | .addrk _ _ _ => true
  | .addrkConst _ _ _ => true
  | .loadc _ _ => true

end Machine
end Sys2Proof
end

