-- ==== Sys2Proof/Certificates/Slice0/Obligations.lean ====
section
/-! DEFINITION. The statements for the provers. Where a statement names `afterCommand i y s`, that is `s` with the
arena `y`, the words of i's expansion appended to the log and the command index one further, the fault record and the
command list unchanged; `afterFault c w s` is `s` with the fault record (1, c, s.ci, w) and nothing else changed
(both in Safety.lean). Arena equations say the frame of the registers: an arena given as `writeReg` or `xorNib` of
the old one differs from it at the named registers only. -/

open Sys2Proof Sys2Proof.Machine

/-! ### Reset and the invariant -/

/-- R30: the values after reset, for the machine right after reset and for the reset event on any state. -/
def Obligations.ResetValues : Prop :=
  ∀ t : State, (t = State.reset ∨ ∃ s, t = resetEvent s) →
    (∀ i, i < t.nreg → readReg t.x i = false) ∧ t.gl = [] ∧ t.ci = 0 ∧
      t.fr.valid = false ∧ t.fr.code = 0 ∧ t.fr.ci = 0 ∧ t.fr.word = 0

/-- The invariant holds of the machine right after reset (whose 68 registers are the model's choice, log entry 2) and
of every state in which a run starts, for every legal NREG (R7) and every command list. -/
def Obligations.InvariantAtReset : Prop :=
  Sound State.reset ∧
    ∀ (nreg : Nat) (cmds : List Word), Config.legalNReg nreg = true → Sound (State.boot nreg cmds)

/-- Every step keeps the invariant of Safety.lean: NREG legal, the command index within the command list, the fault
record legal, every log word a valid primitive, and the arena equal to the log replayed on the reset arena. -/
def Obligations.StepKeepsInvariant : Prop :=
  ∀ s t : State, Sound s → step s = .next t → Sound t

/-! ### Steps, faults and the end of a run -/

/-- R32: where no fault is recorded and the word at the command index decodes to a command, the step is that command's
meaning and nothing besides. -/
def Obligations.StepRunsDecodedCommand : Prop :=
  ∀ (s : State) (w : Word) (i : Instr),
    s.fr.valid = false → s.cmds[s.ci]? = some w → decode w = .ok i → step s = exec i s

/-- R241 (with the order of R244): the first check that fails decides the code; the step writes the fault record and
nothing else, and the step after it is the end of the run. -/
def Obligations.FaultEntry : Prop :=
  ∀ (s : State) (w : Word) (code : BitVec 8),
    s.fr.valid = false → s.cmds[s.ci]? = some w →
    ((decode w = .error .illegalOpcode ∧ code = 0x01) ∨
      (decode w = .error .illegalEncoding ∧ code = 0x02) ∨
      (∃ i, decode w = .ok i ∧ i.inRange s.nreg = false ∧ code = 0x03) ∨
      (∃ i, decode w = .ok i ∧ i.inRange s.nreg = true ∧ i.disjoint = false ∧ code = 0x04)) →
    step s = .next { s with fr := { valid := true, code := code, ci := s.ci, word := w } } ∧
      step { s with fr := { valid := true, code := code, ci := s.ci, word := w } } = .fault .runFaulted

/-- R75 and R76 on every command: out of range it takes fault 0x03, in range with overlapping operands fault 0x04,
and otherwise it completes with its whole expansion. -/
def Obligations.OperandChecksDecide : Prop :=
  ∀ (i : Instr) (s : State),
    (i.inRange s.nreg = false → exec i s = .next (afterFault 0x03 (encode i) s)) ∧
    (i.inRange s.nreg = true → i.disjoint = false → exec i s = .next (afterFault 0x04 (encode i) s)) ∧
    (i.wellFormed s.nreg = true → exec i s = .next (afterCommand i (applyGates (expand i) s.x) s))

/-- R76: the overlap check means that no two operand regions share a register; for CX that c and t differ, for CCX
that its three operands are pairwise distinct. -/
def Obligations.OverlapMeansSharedRegister : Prop :=
  (∀ (a b : RegIx) (m n : Nat), 0 < m → 0 < n →
    (apart a m b n = true ↔
      ¬∃ j, (a.toNat ≤ j ∧ j < a.toNat + m) ∧ (b.toNat ≤ j ∧ j < b.toNat + n))) ∧
  (∀ c t : RegIx, (Instr.cx c t).disjoint = true ↔ c ≠ t) ∧
  (∀ c1 c2 t : RegIx, (Instr.ccx c1 c2 t).disjoint = true ↔ c1 ≠ c2 ∧ c1 ≠ t ∧ c2 ≠ t)

/-- R32: a step stops exactly where the run has ended, with the name of the ending; everywhere else it has a next
state. It never refuses. -/
def Obligations.RunEnds : Prop :=
  ∀ s : State,
    (step s = .fault .runFaulted ↔ s.fr.valid = true) ∧
    (step s = .fault .runCompleted ↔ s.fr.valid = false ∧ s.cmds.length ≤ s.ci) ∧
    (s.fr.valid = false → s.ci < s.cmds.length → ∃ t, step s = .next t) ∧
    (∀ r, step s ≠ .refused r)

/-- R243, R32, R69: a step is one whole command, which advances the command index by one, or one fault, which changes
nothing but the fault record. No step changes the command list or the number of registers. -/
def Obligations.StepIsWholeCommandOrFault : Prop :=
  ∀ s t : State, step s = .next t →
    (∃ w, s.cmds[s.ci]? = some w ∧
      ((∃ c ∈ [0x01#8, 0x02#8, 0x03#8, 0x04#8], t = afterFault c w s) ∨
       (∃ i, decode w = .ok i ∧ i.wellFormed s.nreg = true ∧
          t = afterCommand i (applyGates (expand i) s.x) s))) ∧
    t.cmds = s.cmds ∧ t.nreg = s.nreg

/-! ### Encoding -/

/-- The 240 reserved values of field OPC, written out as R66 lists them. -/
def Sys2Proof.reservedOpcode (n : Nat) : Bool :=
  n == 0 || (0x05 ≤ n && n ≤ 0x0F) || (0x14 ≤ n && n ≤ 0x1F) || (0x21 ≤ n && n ≤ 0x2F) || (0x32 ≤ n && n ≤ 0x3F) ||
    (0x41 ≤ n && n ≤ 0x4F) || (0x51 ≤ n && n ≤ 0x5F) || (0x63 ≤ n && n ≤ 0xFF)

/-- R66: a word raises ILLEGAL_OPCODE, in decoding and as the code 0x01 of the fault record, exactly when its opcode is
one of the 240 reserved values. -/
def Obligations.ReservedOpcodesRefused : Prop :=
  ((List.range 256).filter reservedOpcode).length = 240 ∧
  (∀ w : Word, decode w = .error .illegalOpcode ↔ reservedOpcode (opcField w).toNat = true) ∧
  (∀ (s : State) (w : Word), s.fr.valid = false → s.cmds[s.ci]? = some w →
    reservedOpcode (opcField w).toNat = true → step s = .next (afterFault 0x01 w s))

/-- R67: which fields an opcode uses, as R65 lists them; any bit set in RSV or in a field not used raises
ILLEGAL_ENCODING; and every defined command has exactly one encoding per operand tuple. -/
def Obligations.UnusedFieldsRefused : Prop :=
  (∀ w : Word, reservedOpcode (opcField w).toNat = false →
    (decode w = .error .illegalEncoding ↔
      rsvField w ≠ 0 ∨
      (opcField w ∈ [0x01#8, 0x04#8, 0x62#8] ∧ bField w ≠ 0) ∨
      (opcField w ∉ [0x03#8, 0x11#8, 0x12#8, 0x30#8, 0x31#8] ∧ cField w ≠ 0) ∨
      (opcField w ∉ [0x40#8, 0x50#8, 0x60#8] ∧ optField w ≠ 0) ∨
      (opcField w ∉ [0x61#8, 0x62#8] ∧ immField w ≠ 0))) ∧
  (∀ (v w : Word) (i : Instr), decode v = .ok i → decode w = .ok i → v = w)

/-- Decoding the word of any command gives the command back, with every operand at every value. -/
def Obligations.DecodeOfEncode : Prop :=
  ∀ i : Instr, decode (encode i) = .ok i

/-- Every word that decodes is the word of the command it decodes to. -/
def Obligations.EncodeOfDecode : Prop :=
  ∀ (w : Word) (i : Instr), decode w = .ok i → encode i = w

/-- R78: the worked encodings, each as its source line, its word and its command. -/
def Sys2Proof.workedEncodings : List (List Char × Word × Instr) :=
  [("FLIP 3".toList, 0x0103000000000000, .flip 3),
   ("CX 0, 4".toList, 0x0200040000000000, .cx 0 4),
   ("CCX 0, 4, 8".toList, 0x0300040800000000, .ccx 0 4 8),
   ("GF_MUL 0, 4, 8".toList, 0x1100040800000000, .gfMul 0 4 8),
   ("SUBNIB 0, 32, 52".toList, 0x3100203400000000, .subnib 0 32 52),
   ("SRMC 0, 32".toList, 0x4000200000000000, .srmc 0 32 .clean),
   ("SRMC 0, 32, noclean".toList, 0x4000200000010000, .srmc 0 32 .noclean),
   ("KEYEXP 16, 32, 1".toList, 0x5010200000000000, .keyexp 16 32 .one),
   ("KEYEXP 16, 32, 2".toList, 0x5010200000010000, .keyexp 16 32 .two),
   ("ADDRK 0, 16, swap13".toList, 0x6000100000010000, .addrk 0 16 .swap13),
   ("ADDRK_CONST 0, 16, 0x4AF5".toList, 0x6100100000004AF5, .addrkConst 0 16 0x4AF5),
   ("LOADC 0, 0xD728".toList, 0x620000000000D728, .loadc 0 0xD728)]

/-- R78: each worked word decodes to its command, is that command's word, and is what the assembler makes of its
line. -/
def Obligations.WorkedEncodings : Prop :=
  ∀ p ∈ workedEncodings,
    decode p.2.1 = .ok p.2.2 ∧ encode p.2.2 = p.2.1 ∧ assembleLine p.1 = .ok (some (.command p.2.2))

/-! ### Expansions, reversal and the gate log -/

/-- R245: every primitive of the expansion of a command that passes its checks has operands below NREG, pairwise
distinct and each inside an operand region of the command; so the primitive, as a command, passes its own checks. -/
def Obligations.ExpansionsNeverFault : Prop :=
  ∀ (nreg : Nat) (i : Instr), i.wellFormed nreg = true → nreg ≤ Config.maxNReg → ∀ g ∈ expand i,
    gateValid nreg g = true ∧ (gateCommand g).wellFormed nreg = true ∧
    ∀ j ∈ gateTarget g :: gateControls g, ∃ r ∈ operandRegions i, r.base ≤ j ∧ j < r.base + r.size

/-- The laws of 40_primitives.md section 3. FLIP, CX and CCX are self-inverse; a RESET-free list followed by its
reverse restores every register; two primitives whose targets are not controls of each other commute, RESET and
another primitive on one and the same target left out (a RESET erases what the other wrote; log entry 16). -/
def Obligations.PrimitiveLaws : Prop :=
  (∀ (g : Gate) (x : Arena), gateValid x.length g = true → isReset g = false → applyGate g (applyGate g x) = x) ∧
  (∀ (E : List Gate) (x : Arena), (∀ g ∈ E, gateValid x.length g = true ∧ isReset g = false) →
    applyGates (E ++ E.reverse) x = x) ∧
  (∀ (g h : Gate) (x : Arena), gateValid x.length g = true → gateValid x.length h = true →
    gateTarget g ∉ gateControls h → gateTarget h ∉ gateControls g →
    (gateTarget g ≠ gateTarget h ∨ isReset g = isReset h) →
    applyGate g (applyGate h x) = applyGate h (applyGate g x))

/-- R151: a block of XOR-accumulations whose targets are none of its own controls is an involution, and a list of such
blocks followed by its uncompute restores every register. -/
def Obligations.UncomputeRestores : Prop :=
  ∀ (blocks : List (List Gate)) (x : Arena),
    (∀ B ∈ blocks, ∀ g ∈ B, gateValid x.length g = true ∧ isReset g = false ∧
      ∀ h ∈ B, gateTarget g ∉ gateControls h) →
    (∀ B ∈ blocks, applyGates B (applyGates B x) = x) ∧ applyGates (blocks.flatten ++ uncompute blocks) x = x

/-- R287: for the commands the rule calls reversible, the primitives in reverse order undo the command on every arena;
RESET and SUBNIB, the only commands whose expansion holds a RESET, are not undone so on some arena. -/
def Obligations.ReversibleCommands : Prop :=
  (∀ (i : Instr) (x : Arena), i.wellFormed x.length = true → reversible i = true →
    applyGates (expand i).reverse (applyGates (expand i) x) = x) ∧
  (∀ i : Instr, reversible i = false ↔ ∃ g ∈ expand i, isReset g = true) ∧
  (∀ (i : Instr) (nreg : Nat), i.wellFormed nreg = true → reversible i = false →
    ∃ x : Arena, x.length = nreg ∧ applyGates (expand i).reverse (applyGates (expand i) x) ≠ x)

/-- R106: at any point of any run, of any command list and for any legal NREG, the arena is what the words of the gate
log, applied in order, make of the reset arena. -/
def Obligations.LogReplaysToArena : Prop :=
  ∀ (nreg : Nat) (cmds : List Word) (n : Nat) (s : State),
    Config.legalNReg nreg = true → Host.Core.run Sys2Proof.core n (State.boot nreg cmds) = .next s →
    replayLog s.gl (List.replicate nreg false) = s.x

/-- R71: every primitive of an expansion is recorded as its own command word; every word of the log of a sound state is
a valid primitive command; and executing the log as a command list from the reset state completes with the same arena
and the same log. -/
def Obligations.LogRerunsToSameArena : Prop :=
  (∀ (i : Instr) (s : State), i.wellFormed s.nreg = true → s.nreg ≤ Config.maxNReg →
    ∃ t : State, exec i s = .next t ∧ t.gl = s.gl ++ (expand i).map gateWord ∧
      ∀ g ∈ expand i, decode (gateWord g) = .ok (gateCommand g) ∧ gateOfWord (gateWord g) = some g) ∧
  ∀ s : State, Sound s →
    (∀ w ∈ s.gl, ∃ g, decode w = .ok (gateCommand g) ∧ gateValid s.nreg g = true) ∧
    ∃ t : State, Host.Core.run Sys2Proof.core s.gl.length (State.boot s.nreg s.gl) = .next t ∧
      t.x = s.x ∧ t.gl = s.gl ∧ t.ci = s.gl.length ∧ t.fr = FaultRecord.clear

/-- R22: the gate log is append-only, and the core never reads it: with another log in its place, a step does the same
to everything else and appends the same words. -/
def Obligations.LogIsWriteOnly : Prop :=
  ∀ s t : State, step s = .next t →
    ∃ added : List Word, t.gl = s.gl ++ added ∧
      ∀ gl : List Word, step { s with gl := gl } = .next { t with gl := gl ++ added }

/-- R31, R244: what a step appends to the log, where the command index goes and which fault is taken depend on the
command list and on NREG alone, not on what the registers hold. -/
def Obligations.LogIsDataIndependent : Prop :=
  ∀ (s t : State) (x : Arena), step s = .next t → x.length = s.x.length →
    ∃ y : Arena, step { s with x := x } = .next { t with x := y }

/-- R20, R41: whatever the arena holds, a command that completes changes no register outside its operand regions. -/
def Obligations.OnlyOperandRegionsChange : Prop :=
  ∀ (i : Instr) (s t : State), exec i s = .next t →
    t.x.length = s.x.length ∧
    ∀ j, (∀ r ∈ operandRegions i, ¬(r.base ≤ j ∧ j < r.base + r.size)) → readReg t.x j = readReg s.x j

/-! ### The primitives -/

/-- R101. -/
def Obligations.FlipCommand : Prop :=
  (∀ (t : RegIx) (s : State),
    (t.toNat < s.nreg → exec (.flip t) s = .next { s with
      x := writeReg s.x t.toNat (!readReg s.x t.toNat), gl := s.gl ++ [encode (.flip t)], ci := s.ci + 1 }) ∧
    (s.nreg ≤ t.toNat → exec (.flip t) s = .next (afterFault 0x03 (encode (.flip t)) s))) ∧
  (∀ w : Word, opcField w = 0x01 → decode w =
    if rsvField w = 0 ∧ bField w = 0 ∧ cField w = 0 ∧ optField w = 0 ∧ immField w = 0
      then .ok (.flip (aField w)) else .error .illegalEncoding) ∧
  (∀ (t : RegIx) (s u v : State), t.toNat < s.nreg →
    exec (.flip t) s = .next u → exec (.flip t) u = .next v → v.x = s.x)

/-- R102. -/
def Obligations.CxCommand : Prop :=
  (∀ (c t : RegIx) (s : State),
    (c.toNat < s.nreg → t.toNat < s.nreg → c ≠ t → exec (.cx c t) s = .next { s with
      x := writeReg s.x t.toNat (readReg s.x t.toNat ^^ readReg s.x c.toNat)
      gl := s.gl ++ [encode (.cx c t)], ci := s.ci + 1 }) ∧
    (s.nreg ≤ c.toNat ∨ s.nreg ≤ t.toNat → exec (.cx c t) s = .next (afterFault 0x03 (encode (.cx c t)) s)) ∧
    (c.toNat < s.nreg → c = t → exec (.cx c t) s = .next (afterFault 0x04 (encode (.cx c t)) s))) ∧
  (∀ w : Word, opcField w = 0x02 → decode w =
    if rsvField w = 0 ∧ cField w = 0 ∧ optField w = 0 ∧ immField w = 0
      then .ok (.cx (aField w) (bField w)) else .error .illegalEncoding) ∧
  (∀ (c t : RegIx) (s u v : State), c.toNat < s.nreg → t.toNat < s.nreg → c ≠ t →
    exec (.cx c t) s = .next u → exec (.cx c t) u = .next v → v.x = s.x)

/-- R103. -/
def Obligations.CcxCommand : Prop :=
  (∀ (c1 c2 t : RegIx) (s : State),
    (c1.toNat < s.nreg → c2.toNat < s.nreg → t.toNat < s.nreg → c1 ≠ c2 → c1 ≠ t → c2 ≠ t →
      exec (.ccx c1 c2 t) s = .next { s with
        x := writeReg s.x t.toNat
          (readReg s.x t.toNat ^^ (readReg s.x c1.toNat && readReg s.x c2.toNat))
        gl := s.gl ++ [encode (.ccx c1 c2 t)], ci := s.ci + 1 }) ∧
    (s.nreg ≤ c1.toNat ∨ s.nreg ≤ c2.toNat ∨ s.nreg ≤ t.toNat →
      exec (.ccx c1 c2 t) s = .next (afterFault 0x03 (encode (.ccx c1 c2 t)) s)) ∧
    (c1.toNat < s.nreg → c2.toNat < s.nreg → t.toNat < s.nreg → c1 = c2 ∨ c1 = t ∨ c2 = t →
      exec (.ccx c1 c2 t) s = .next (afterFault 0x04 (encode (.ccx c1 c2 t)) s))) ∧
  (∀ w : Word, opcField w = 0x03 → decode w =
    if rsvField w = 0 ∧ optField w = 0 ∧ immField w = 0
      then .ok (.ccx (aField w) (bField w) (cField w)) else .error .illegalEncoding) ∧
  (∀ (c1 c2 t : RegIx) (s u v : State), (Instr.ccx c1 c2 t).wellFormed s.nreg = true →
    exec (.ccx c1 c2 t) s = .next u → exec (.ccx c1 c2 t) u = .next v → v.x = s.x)

/-- R104: RESET; that it erases the old value, is idempotent, and stands in no expansion but its own and SUBNIB's. -/
def Obligations.ResetCommand : Prop :=
  (∀ (t : RegIx) (s : State),
    (t.toNat < s.nreg → exec (.reset t) s = .next { s with
      x := writeReg s.x t.toNat false, gl := s.gl ++ [encode (.reset t)], ci := s.ci + 1 }) ∧
    (s.nreg ≤ t.toNat → exec (.reset t) s = .next (afterFault 0x03 (encode (.reset t)) s))) ∧
  (∀ w : Word, opcField w = 0x04 → decode w =
    if rsvField w = 0 ∧ bField w = 0 ∧ cField w = 0 ∧ optField w = 0 ∧ immField w = 0
      then .ok (.reset (aField w)) else .error .illegalEncoding) ∧
  (∀ (t : RegIx) (s u v : State), t.toNat < s.nreg →
    exec (.reset t) s = .next u → exec (.reset t) u = .next v → v.x = u.x) ∧
  (∀ (t : RegIx) (s : State), t.toNat < s.nreg →
    exec (.reset t) { s with x := writeReg s.x t.toNat (!readReg s.x t.toNat) } = exec (.reset t) s) ∧
  (∀ i : Instr, (∃ g ∈ expand i, isReset g = true) → (∃ t, i = .reset t) ∨ ∃ s w o, i = .subnib s w o)

/-! ### Field arithmetic and the affine map -/

/-- GF_SQ on every arena: nib(o)' = nib(o) ^ gmul(nib(a), nib(a)), and nothing else in the arena changes. -/
def Obligations.GfSqResult : Prop :=
  ∀ (a o : RegIx) (s : State), (Instr.gfSq a o).wellFormed s.nreg = true →
    exec (.gfSq a o) s = .next (afterCommand (.gfSq a o)
      (xorNib s.x o.toNat (gmul (nib s.x a.toNat) (nib s.x a.toNat))) s)

/-- GF_MUL on every arena: nib(c)' = nib(c) ^ gmul(nib(a), nib(b)), and nothing else in the arena changes. -/
def Obligations.GfMulResult : Prop :=
  ∀ (a b c : RegIx) (s : State), (Instr.gfMul a b c).wellFormed s.nreg = true →
    exec (.gfMul a b c) s = .next (afterCommand (.gfMul a b c)
      (xorNib s.x c.toNat (gmul (nib s.x a.toNat) (nib s.x b.toNat))) s)

/-- GF_MUL4 on every arena: nib(o)' = nib(o) ^ gmul(4, nib(a)), and nothing else in the arena changes. -/
def Obligations.GfMul4Result : Prop :=
  ∀ (a o : RegIx) (s : State), (Instr.gfMul4 a o).wellFormed s.nreg = true →
    exec (.gfMul4 a o) s = .next (afterCommand (.gfMul4 a o)
      (xorNib s.x o.toNat (gmul 4 (nib s.x a.toNat))) s)

/-- AFFINE on every arena: nib(b)' = nib(b) ^ aff(nib(c)), and nothing else in the arena changes. -/
def Obligations.AffineResult : Prop :=
  ∀ (c b : RegIx) (s : State), (Instr.affine c b).wellFormed s.nreg = true →
    exec (.affine c b) s = .next (afterCommand (.affine c b)
      (xorNib s.x b.toNat (aff (nib s.x c.toNat))) s)

/-- GF_INV: for any workspace the only change of the arena is to o, which receives the value the chain makes of the
workspace; with the workspace clean that value is inv(nib(a)). -/
def Obligations.GfInvResult : Prop :=
  ∀ (a w o : RegIx) (s : State), (Instr.gfInv a w o).wellFormed s.nreg = true →
    (let w0 := nib s.x w.toNat ^^^ gsq (nib s.x a.toNat)
     let w1 := nib s.x (w.toNat + 4) ^^^ gsq w0
     let w2 := nib s.x (w.toNat + 8) ^^^ gsq w1
     let w3 := nib s.x (w.toNat + 12) ^^^ gmul w2 w1
     exec (.gfInv a w o) s = .next (afterCommand (.gfInv a w o) (xorNib s.x o.toNat (gmul w3 w0)) s)) ∧
    (clean s.x w.toNat 16 = true →
      exec (.gfInv a w o) s = .next (afterCommand (.gfInv a w o)
        (xorNib s.x o.toNat (ginv (nib s.x a.toNat))) s))

/-! ### S-box and SubNibble -/

/-- SBOX: for any workspace the only change of the arena is to o, which receives aff of the value the chain makes of
the workspace; with the workspace clean that is S(nib(a)). -/
def Obligations.SboxResult : Prop :=
  ∀ (a w o : RegIx) (s : State), (Instr.sbox a w o).wellFormed s.nreg = true →
    (let w0 := nib s.x w.toNat ^^^ gsq (nib s.x a.toNat)
     let w1 := nib s.x (w.toNat + 4) ^^^ gsq w0
     let w2 := nib s.x (w.toNat + 8) ^^^ gsq w1
     let w3 := nib s.x (w.toNat + 12) ^^^ gmul w2 w1
     let w4 := nib s.x (w.toNat + 16) ^^^ gmul w3 w0
     exec (.sbox a w o) s = .next (afterCommand (.sbox a w o) (xorNib s.x o.toNat (aff w4)) s)) ∧
    (clean s.x w.toNat 20 = true →
      exec (.sbox a w o) s = .next (afterCommand (.sbox a w o)
        (xorNib s.x o.toNat (sboxVal (nib s.x a.toNat))) s))

/-- SUBNIB with the workspace clean, for any output region: every state nibble becomes nib(oi) ^ S(nib(si)), the
output region ends at zero, and every other register, the workspace among them, is unchanged. -/
def Obligations.SubnibResult : Prop :=
  ∀ (b w o : RegIx) (s : State), (Instr.subnib b w o).wellFormed s.nreg = true → clean s.x w.toNat 20 = true →
    ∃ y : Arena, exec (.subnib b w o) s = .next (afterCommand (.subnib b w o) y s) ∧
      y.length = s.x.length ∧
      (∀ n, n < 4 →
        nib y (b.toNat + 4 * n) = nib s.x (o.toNat + 4 * n) ^^^ sboxVal (nib s.x (b.toNat + 4 * n)) ∧
        nib y (o.toNat + 4 * n) = 0) ∧
      (∀ j, ¬(b.toNat ≤ j ∧ j < b.toNat + 16) → ¬(o.toNat ≤ j ∧ j < o.toNat + 16) →
        readReg y j = readReg s.x j)

/-! ### ShiftRows and MixColumns -/

/-- SRMC with OPT = 0, for any scratch contents g0 to g3: the state nibbles P0 to P3 and the scratch on exit, and
every other register unchanged. -/
def Obligations.SrmcResult : Prop :=
  ∀ (b w : RegIx) (s : State), (Instr.srmc b w .clean).wellFormed s.nreg = true →
    ∃ y : Arena, exec (.srmc b w .clean) s = .next (afterCommand (.srmc b w .clean) y s) ∧
      y.length = s.x.length ∧
      (let p := fun n : Nat => nib s.x (b.toNat + 4 * n)
       let g := fun n : Nat => nib s.x (w.toNat + 4 * n)
       nib y b.toNat = p 0 ^^^ gmul 4 (p 3) ^^^ g 1 ∧
       nib y (b.toNat + 4) = p 1 ^^^ gmul 4 (p 2) ^^^ g 3 ∧
       nib y (b.toNat + 8) = p 2 ^^^ gmul 4 (p 1) ^^^ g 2 ∧
       nib y (b.toNat + 12) = p 3 ^^^ gmul 4 (p 0) ^^^ g 0 ∧
       nib y w.toNat = gmul 9 (g 0) ^^^ gmul 2 (g 1) ∧
       nib y (w.toNat + 4) = gmul 9 (g 1) ^^^ gmul 2 (g 0) ∧
       nib y (w.toNat + 8) = gmul 9 (g 2) ^^^ gmul 2 (g 3) ∧
       nib y (w.toNat + 12) = gmul 9 (g 3) ^^^ gmul 2 (g 2)) ∧
      (∀ j, ¬(b.toNat ≤ j ∧ j < b.toNat + 16) → ¬(w.toNat ≤ j ∧ j < w.toNat + 16) →
        readReg y j = readReg s.x j)

/-- SRMC with OPT = 1 (noclean), for any scratch contents: the same state nibbles, the scratch left with the products
in it, and every other register unchanged. -/
def Obligations.SrmcNocleanResult : Prop :=
  ∀ (b w : RegIx) (s : State), (Instr.srmc b w .noclean).wellFormed s.nreg = true →
    ∃ y : Arena, exec (.srmc b w .noclean) s = .next (afterCommand (.srmc b w .noclean) y s) ∧
      y.length = s.x.length ∧
      (let p := fun n : Nat => nib s.x (b.toNat + 4 * n)
       let g := fun n : Nat => nib s.x (w.toNat + 4 * n)
       nib y b.toNat = p 0 ^^^ gmul 4 (p 3) ^^^ g 1 ∧
       nib y (b.toNat + 4) = p 1 ^^^ gmul 4 (p 2) ^^^ g 3 ∧
       nib y (b.toNat + 8) = p 2 ^^^ gmul 4 (p 1) ^^^ g 2 ∧
       nib y (b.toNat + 12) = p 3 ^^^ gmul 4 (p 0) ^^^ g 0 ∧
       nib y w.toNat = g 0 ^^^ gmul 4 (p 0) ∧
       nib y (w.toNat + 4) = g 1 ^^^ gmul 4 (p 3) ∧
       nib y (w.toNat + 8) = g 2 ^^^ gmul 4 (p 1) ∧
       nib y (w.toNat + 12) = g 3 ^^^ gmul 4 (p 2)) ∧
      (∀ j, ¬(b.toNat ≤ j ∧ j < b.toNat + 16) → ¬(w.toNat ≤ j ∧ j < w.toNat + 16) →
        readReg y j = readReg s.x j)

/-- The logical meaning of SRMC with the scratch clean, for both OPT: read with π = id before and π = swap13 after,
the state goes to MixColumns(ShiftRows(L)); read with π = swap13 before and after, to MixColumns(L). -/
def Obligations.SrmcMixesShiftedRows : Prop :=
  ∀ (b w : RegIx) (c : Cleanup) (s : State), (Instr.srmc b w c).wellFormed s.nreg = true →
    clean s.x w.toNat 16 = true →
    ∃ y : Arena, exec (.srmc b w c) s = .next (afterCommand (.srmc b w c) y s) ∧
      logicalState y b.toNat .swap13 = mixColumns (shiftRows (logicalState s.x b.toNat .ident)) ∧
      logicalState y b.toNat .swap13 = mixColumns (logicalState s.x b.toNat .swap13)

/-! ### Key schedule -/

/-- KEYEXP with the workspace clean: the four key nibbles on exit, and every register outside the key block, the
workspace among them, unchanged. -/
def Obligations.KeyexpResult : Prop :=
  ∀ (k w : RegIx) (r : Round) (s : State), (Instr.keyexp k w r).wellFormed s.nreg = true →
    clean s.x w.toNat 20 = true →
    ∃ y : Arena, exec (.keyexp k w r) s = .next (afterCommand (.keyexp k w r) y s) ∧
      y.length = s.x.length ∧
      nib y k.toNat = nib s.x k.toNat ^^^ sboxVal (nib s.x (k.toNat + 12)) ^^^ rconNib r ∧
      nib y (k.toNat + 4) = nib s.x (k.toNat + 4) ^^^ sboxVal (nib s.x (k.toNat + 8)) ∧
      nib y (k.toNat + 8) = nib s.x (k.toNat + 8) ^^^ nib y k.toNat ∧
      nib y (k.toNat + 12) = nib s.x (k.toNat + 12) ^^^ nib y (k.toNat + 4) ∧
      (∀ j, ¬(k.toNat ≤ j ∧ j < k.toNat + 16) → readReg y j = readReg s.x j)

/-- R193: for every 16-bit key K in the key block and a clean workspace, KEYEXP with r = 1 and then with r = 2 leaves
the round keys 1 and 2 of the classical schedule in the block, and the workspace zero after each. -/
def Obligations.KeyexpMatchesClassical : Prop :=
  ∀ (k w : RegIx) (key : Block) (s : State), (Instr.keyexp k w .one).wellFormed s.nreg = true →
    val16 s.x k.toNat = key → clean s.x w.toNat 20 = true →
    ∃ t u : State, exec (.keyexp k w .one) s = .next t ∧ exec (.keyexp k w .two) t = .next u ∧
      (roundKeys key)[1]? = some (val16 t.x k.toNat) ∧ clean t.x w.toNat 20 = true ∧
      (roundKeys key)[2]? = some (val16 u.x k.toNat) ∧ clean u.x w.toNat 20 = true

/-! ### AddRoundKey and constant loading -/

/-- ADDRK on every arena: key nibble n is XORed into physical state nibble π(n); the key block and every other
register are unchanged; with OPT = 0 it is the XOR of the two 16-bit values; and it is its own inverse. -/
def Obligations.AddrkResult : Prop :=
  ∀ (b k : RegIx) (l : Layout) (s : State), (Instr.addrk b k l).wellFormed s.nreg = true →
    ∃ y : Arena, exec (.addrk b k l) s = .next (afterCommand (.addrk b k l) y s) ∧
      y.length = s.x.length ∧
      (∀ n, n < 4 → nib y (b.toNat + 4 * physicalNibble l n) =
        nib s.x (b.toNat + 4 * physicalNibble l n) ^^^ nib s.x (k.toNat + 4 * n)) ∧
      (∀ j, ¬(b.toNat ≤ j ∧ j < b.toNat + 16) → readReg y j = readReg s.x j) ∧
      (l = .ident → val16 y b.toNat = val16 s.x b.toNat ^^^ val16 s.x k.toNat) ∧
      applyGates (expand (.addrk b k l)) y = s.x

/-- R220: on S-AES values ADDRK is the bit by bit XOR of the state with the round key, the state block in either
layout and the key block in the plain one. -/
def Obligations.AddrkAddsRoundKey : Prop :=
  ∀ (b k : RegIx) (l : Layout) (s t : State), (Instr.addrk b k l).wellFormed s.nreg = true →
    exec (.addrk b k l) s = .next t →
    logicalState t.x b.toNat l = addKey (logicalState s.x b.toNat l) (val16 s.x k.toNat)

/-- ADDRK_CONST on every arena: the key block becomes key ^ imm, the state receives imm & ~key, every other register
is unchanged, and imm = 0 emits nothing; with the key block clean, key = imm and state ^= imm. -/
def Obligations.AddrkConstResult : Prop :=
  ∀ (b k : RegIx) (imm : Block) (s : State), (Instr.addrkConst b k imm).wellFormed s.nreg = true →
    ∃ y : Arena, exec (.addrkConst b k imm) s = .next (afterCommand (.addrkConst b k imm) y s) ∧
      y.length = s.x.length ∧
      val16 y k.toNat = val16 s.x k.toNat ^^^ imm ∧
      val16 y b.toNat = val16 s.x b.toNat ^^^ (imm &&& ~~~(val16 s.x k.toNat)) ∧
      (∀ j, ¬(b.toNat ≤ j ∧ j < b.toNat + 16) → ¬(k.toNat ≤ j ∧ j < k.toNat + 16) →
        readReg y j = readReg s.x j) ∧
      (imm = 0 → expand (.addrkConst b k imm) = []) ∧
      (clean s.x k.toNat 16 = true →
        val16 y k.toNat = imm ∧ val16 y b.toNat = val16 s.x b.toNat ^^^ imm)

/-- LOADC on every arena: val16(b)' = val16(b) ^ imm, every other register unchanged; with the block clean,
val16(b)' = imm. -/
def Obligations.LoadcResult : Prop :=
  ∀ (b : RegIx) (imm : Block) (s : State), (Instr.loadc b imm).wellFormed s.nreg = true →
    ∃ y : Arena, exec (.loadc b imm) s = .next (afterCommand (.loadc b imm) y s) ∧
      y.length = s.x.length ∧
      val16 y b.toNat = val16 s.x b.toNat ^^^ imm ∧
      (∀ j, ¬(b.toNat ≤ j ∧ j < b.toNat + 16) → readReg y j = readReg s.x j) ∧
      (clean s.x b.toNat 16 = true → val16 y b.toNat = imm)

/-! ### Contracts and cost -/

/-- R280: a command whose contract regions are clean on entry completes and leaves clean the regions the table
names. -/
def Obligations.ContractsKept : Prop :=
  ∀ (i : Instr) (s : State), i.wellFormed s.nreg = true → allClean s.x (needsClean i) = true →
    ∃ t, exec i s = .next t ∧ t.fr = s.fr ∧ allClean t.x (leavesClean i) = true

/-- R288: the gates of every command, by kind. -/
def Obligations.GateCounts : Prop :=
  (∀ t, countGates (expand (.flip t)) = { cx := 0, ccx := 0, flip := 1, reset := 0 }) ∧
  (∀ c t, countGates (expand (.cx c t)) = { cx := 1, ccx := 0, flip := 0, reset := 0 }) ∧
  (∀ c1 c2 t, countGates (expand (.ccx c1 c2 t)) = { cx := 0, ccx := 1, flip := 0, reset := 0 }) ∧
  (∀ t, countGates (expand (.reset t)) = { cx := 0, ccx := 0, flip := 0, reset := 1 }) ∧
  (∀ a o, countGates (expand (.gfSq a o)) = { cx := 6, ccx := 0, flip := 0, reset := 0 }) ∧
  (∀ a b c, countGates (expand (.gfMul a b c)) = { cx := 0, ccx := 22, flip := 0, reset := 0 }) ∧
  (∀ a o, countGates (expand (.gfMul4 a o)) = { cx := 6, ccx := 0, flip := 0, reset := 0 }) ∧
  (∀ a w o, countGates (expand (.gfInv a w o)) = { cx := 36, ccx := 66, flip := 0, reset := 0 }) ∧
  (∀ c b, countGates (expand (.affine c b)) = { cx := 12, ccx := 0, flip := 2, reset := 0 }) ∧
  (∀ a w o, countGates (expand (.sbox a w o)) = { cx := 48, ccx := 88, flip := 2, reset := 0 }) ∧
  (∀ s w o, countGates (expand (.subnib s w o)) = { cx := 224, ccx := 352, flip := 8, reset := 16 }) ∧
  (∀ s w, countGates (expand (.srmc s w .clean)) = { cx := 88, ccx := 0, flip := 0, reset := 0 }) ∧
  (∀ s w, countGates (expand (.srmc s w .noclean)) = { cx := 40, ccx := 0, flip := 0, reset := 0 }) ∧
  (∀ k w, countGates (expand (.keyexp k w .one)) = { cx := 104, ccx := 176, flip := 5, reset := 0 }) ∧
  (∀ k w, countGates (expand (.keyexp k w .two)) = { cx := 104, ccx := 176, flip := 6, reset := 0 }) ∧
  (∀ s k l, countGates (expand (.addrk s k l)) = { cx := 16, ccx := 0, flip := 0, reset := 0 }) ∧
  (∀ s k imm, countGates (expand (.addrkConst s k imm)) =
    { cx := popcount imm, ccx := 0, flip := popcount imm, reset := 0 }) ∧
  (∀ b imm, countGates (expand (.loadc b imm)) = { cx := 0, ccx := 0, flip := popcount imm, reset := 0 }) ∧
  (∀ i, (expand i).length = (countGates (expand i)).cx + (countGates (expand i)).ccx +
    (countGates (expand i)).flip + (countGates (expand i)).reset)

/-! ### Views of the arena, and the host functions -/

/-- R43: value bit v of the block at b is in register b + 4*(3 - floor(v/4)) + (v mod 4), and character j of a
16-character string, which is bit 15 - j, in register b + 4*floor(j/4) + (3 - (j mod 4)). -/
def Obligations.BlockBitOrder : Prop :=
  ∀ (x : Arena) (b : Nat),
    (∀ v, v < 16 → (val16 x b).getLsbD v = readReg x (b + 4 * (3 - v / 4) + v % 4)) ∧
    (∀ j, j < 16 → (val16 x b).getLsbD (15 - j) = readReg x (b + 4 * (j / 4) + (3 - j % 4))) ∧
    (nib x b).toNat * 2 ^ 12 + (nib x (b + 4)).toNat * 2 ^ 8 + (nib x (b + 8)).toNat * 2 ^ 4 +
      (nib x (b + 12)).toNat = (val16 x b).toNat

/-- R200: PARSE16 fails exactly on a string that, its spaces removed, has another length than 16 or a character other
than '0' and '1'; and else bit 15 - j of its value is character j. -/
def Obligations.Parse16Rule : Prop :=
  ∀ str : List Char,
    let t := str.filter fun c => c != ' '
    (t.length ≠ 16 ∨ (∃ c ∈ t, c ≠ '0' ∧ c ≠ '1') → parse16 str = .error .inputValidation) ∧
    (t.length = 16 → (∀ c ∈ t, c = '0' ∨ c = '1') →
      ∃ v, parse16 str = .ok v ∧ ∀ j, j < 16 → (v.getLsbD (15 - j) = true ↔ t[j]? = some '1'))

/-- R205: the strings of the round keys parse back to the round keys, and the schedule of a key's own string is that
of the key. -/
def Obligations.KeyStringsRoundTrip : Prop :=
  (∀ v : Block, (bits16 v).length = 16 ∧ parse16 (bits16 v) = .ok v) ∧
  (∀ k : Block, generateRoundKeys (bits16 k) = .ok ((roundKeys k).map bits16)) ∧
  (∀ str : List Char, parse16 str = .error .inputValidation → generateRoundKeys str = .error .inputValidation)
end

