-- ==== Sys2Proof/Laws/Arena.lean ====
section
/-! SUPPORT. Reading after writing, for registers, nibbles and primitives: a write is read back where it went and
leaves every other register alone, and no operation changes the number of registers. -/

namespace Sys2Proof.Machine

/-! ### Registers -/

@[simp] theorem length_writeReg (x : Arena) (i : Nat) (v : Bool) : (writeReg x i v).length = x.length :=
  List.length_set

theorem readReg_of_length_le {x : Arena} {i : Nat} (h : x.length ≤ i) : readReg x i = false := by
  simp [readReg, List.getElem?_eq_none h]

theorem readReg_writeReg (x : Arena) (i j : Nat) (v : Bool) :
    readReg (writeReg x i v) j = if i = j ∧ i < x.length then v else readReg x j := by
  simp only [readReg, writeReg, List.getD_eq_getElem?_getD, List.getElem?_set]
  by_cases h : i = j
  · subst h
    by_cases hl : i < x.length
    · simp [hl]
    · simp [hl]
  · simp [h]

theorem readReg_writeReg_same {x : Arena} {i : Nat} (h : i < x.length) (v : Bool) :
    readReg (writeReg x i v) i = v := by
  rw [readReg_writeReg, if_pos ⟨rfl, h⟩]

theorem readReg_writeReg_other {i j : Nat} (h : i ≠ j) (x : Arena) (v : Bool) :
    readReg (writeReg x i v) j = readReg x j := by
  rw [readReg_writeReg, if_neg fun hc => h hc.1]

/-- Two arenas of one length that read alike are equal. -/
theorem arena_ext {x y : Arena} (hl : x.length = y.length) (h : ∀ i, i < x.length → readReg x i = readReg y i) :
    x = y := by
  apply List.ext_getElem hl
  intro i h1 h2
  have := h i h1
  simpa [readReg, h1, h2] using this

/-! ### Nibbles -/

@[simp] theorem length_setNib (x : Arena) (b : Nat) (v : Nibble) : (setNib x b v).length = x.length := by
  simp [setNib]

@[simp] theorem length_xorNib (x : Arena) (b : Nat) (v : Nibble) : (xorNib x b v).length = x.length :=
  length_setNib _ _ _

@[simp] theorem length_setVal16 (x : Arena) (b : Nat) (v : Block) : (setVal16 x b v).length = x.length := by
  simp [setVal16]

/-- The bits of four concatenated bits. -/
theorem getLsbD_fourBits (p q r s : Bool) (k : Nat) (h : k < 4) :
    (BitVec.ofBool p ++ BitVec.ofBool q ++ BitVec.ofBool r ++ BitVec.ofBool s).getLsbD k =
      if k = 0 then s else if k = 1 then r else if k = 2 then q else p := by
  revert k p q r s
  decide

/-- Register b + k holds bit k of the nibble at b (R42). -/
theorem getLsbD_nib (x : Arena) (b k : Nat) (h : k < 4) : (nib x b).getLsbD k = readReg x (b + k) := by
  have hk : k = 0 ∨ k = 1 ∨ k = 2 ∨ k = 3 := by omega
  rw [nib, getLsbD_fourBits _ _ _ _ _ h]
  rcases hk with rfl | rfl | rfl | rfl <;> rfl

/-- What a register reads after a nibble was written. -/
theorem readReg_setNib {x : Arena} {b : Nat} (hb : b + 4 ≤ x.length) (v : Nibble) (j : Nat) :
    readReg (setNib x b v) j = if b ≤ j ∧ j < b + 4 then v.getLsbD (j - b) else readReg x j := by
  simp only [setNib, readReg_writeReg, length_writeReg]
  by_cases h : b ≤ j ∧ j < b + 4
  · have hj : j = b ∨ j = b + 1 ∨ j = b + 2 ∨ j = b + 3 := by omega
    rcases hj with rfl | rfl | rfl | rfl <;> simp <;> omega
  · have h0 : ¬(b = j ∧ b < x.length) := by omega
    have h1 : ¬(b + 1 = j ∧ b + 1 < x.length) := by omega
    have h2 : ¬(b + 2 = j ∧ b + 2 < x.length) := by omega
    have h3 : ¬(b + 3 = j ∧ b + 3 < x.length) := by omega
    simp [h, h0, h1, h2, h3]

theorem nib_setNib_same {x : Arena} {b : Nat} (hb : b + 4 ≤ x.length) (v : Nibble) : nib (setNib x b v) b = v := by
  apply BitVec.eq_of_getLsbD_eq
  intro k hk
  rw [getLsbD_nib _ _ _ hk, readReg_setNib hb, if_pos (by omega), Nat.add_sub_cancel_left]

theorem nib_setNib_other {x : Arena} {b c : Nat} (hb : b + 4 ≤ x.length) (h : c + 4 ≤ b ∨ b + 4 ≤ c) (v : Nibble) :
    nib (setNib x b v) c = nib x c := by
  apply BitVec.eq_of_getLsbD_eq
  intro k hk
  rw [getLsbD_nib _ _ _ hk, getLsbD_nib _ _ _ hk, readReg_setNib hb, if_neg (by omega)]

/-! ### Primitives -/

@[simp] theorem length_applyGate (g : Gate) (x : Arena) : (applyGate g x).length = x.length := by
  cases g <;> exact length_writeReg _ _ _

/-- A primitive changes no register but its target. -/
theorem readReg_applyGate_other {g : Gate} {j : Nat} (h : gateTarget g ≠ j) (x : Arena) :
    readReg (applyGate g x) j = readReg x j := by
  cases g <;> exact readReg_writeReg_other h _ _

@[simp] theorem applyGates_nil (x : Arena) : applyGates [] x = x := rfl

@[simp] theorem applyGates_cons (g : Gate) (E : List Gate) (x : Arena) :
    applyGates (g :: E) x = applyGates E (applyGate g x) := rfl

theorem applyGates_append (E F : List Gate) (x : Arena) :
    applyGates (E ++ F) x = applyGates F (applyGates E x) := List.foldl_append

@[simp] theorem length_applyGates (E : List Gate) (x : Arena) : (applyGates E x).length = x.length := by
  induction E generalizing x with
  | nil => rfl
  | cons g E ih => rw [applyGates_cons, ih, length_applyGate]

/-- A list of primitives changes no register that is the target of none of them. -/
theorem readReg_applyGates_other {E : List Gate} {j : Nat} (h : ∀ g ∈ E, gateTarget g ≠ j) (x : Arena) :
    readReg (applyGates E x) j = readReg x j := by
  induction E generalizing x with
  | nil => rfl
  | cons g E ih =>
    rw [applyGates_cons, ih fun g' hg => h g' (List.mem_cons_of_mem _ hg),
      readReg_applyGate_other (h g List.mem_cons_self)]

/-! ### Replaying a log -/

@[simp] theorem replayLog_nil (x : Arena) : replayLog [] x = x := rfl

theorem replayLog_append (l m : List Word) (x : Arena) :
    replayLog (l ++ m) x = replayLog m (replayLog l x) := List.foldl_append

end Sys2Proof.Machine
end

