-- ==== Sys2Proof/Laws/Encoding.lean ====
section
/-! SUPPORT. The fields of a packed word are the fields it was packed from (R61), and the field RSV is zero. -/

namespace Sys2Proof

/-- Every bit of a packed word, by the field it lies in (R61). -/
theorem getLsbD_packWord (opc a b c : BitVec 8) (opt : BitVec 1) (imm : Block) (k : Nat) :
    (packWord opc a b c opt imm).getLsbD k =
      if k < 16 then imm.getLsbD k
      else if k < 17 then opt.getLsbD (k - 16)
      else if k < 32 then false
      else if k < 40 then c.getLsbD (k - 32)
      else if k < 48 then b.getLsbD (k - 40)
      else if k < 56 then a.getLsbD (k - 48)
      else opc.getLsbD (k - 56) := by
  have h : (packWord opc a b c opt imm).getLsbD k =
      BitVec.getLsbD (w := 8 + 8 + 8 + 8 + 15 + 1 + 16) (opc ++ a ++ b ++ c ++ 0#15 ++ opt ++ imm) k := rfl
  rw [h]
  simp only [BitVec.getLsbD_append, BitVec.getLsbD_zero, Nat.sub_sub]
  repeat' split
  all_goals first | rfl | omega

/-- A field of a word, read bit by bit. -/
theorem extract_packWord {n p : Nat} {opc a b c : BitVec 8} {opt : BitVec 1} {imm : Block} {v : BitVec n}
    (h : ∀ k, k < n → (packWord opc a b c opt imm).getLsbD (p + k) = v.getLsbD k) :
    (packWord opc a b c opt imm).extractLsb' p n = v := by
  apply BitVec.eq_of_getLsbD_eq
  intro k hk
  rw [BitVec.getLsbD_extractLsb', h k hk]
  simp [hk]

theorem opcField_packWord (opc a b c : BitVec 8) (opt : BitVec 1) (imm : Block) :
    opcField (packWord opc a b c opt imm) = opc := by
  refine extract_packWord fun k hk => ?_
  rw [getLsbD_packWord]
  repeat' rw [if_neg (by omega)]
  congr 1
  omega

theorem aField_packWord (opc a b c : BitVec 8) (opt : BitVec 1) (imm : Block) :
    aField (packWord opc a b c opt imm) = a := by
  refine extract_packWord fun k hk => ?_
  rw [getLsbD_packWord]
  iterate 5 rw [if_neg (by omega)]
  rw [if_pos (by omega)]
  congr 1
  omega

theorem bField_packWord (opc a b c : BitVec 8) (opt : BitVec 1) (imm : Block) :
    bField (packWord opc a b c opt imm) = b := by
  refine extract_packWord fun k hk => ?_
  rw [getLsbD_packWord]
  iterate 4 rw [if_neg (by omega)]
  rw [if_pos (by omega)]
  congr 1
  omega

theorem cField_packWord (opc a b c : BitVec 8) (opt : BitVec 1) (imm : Block) :
    cField (packWord opc a b c opt imm) = c := by
  refine extract_packWord fun k hk => ?_
  rw [getLsbD_packWord]
  iterate 3 rw [if_neg (by omega)]
  rw [if_pos (by omega)]
  congr 1
  omega

theorem rsvField_packWord (opc a b c : BitVec 8) (opt : BitVec 1) (imm : Block) :
    rsvField (packWord opc a b c opt imm) = 0 := by
  refine extract_packWord fun k hk => ?_
  rw [getLsbD_packWord]
  iterate 2 rw [if_neg (by omega)]
  rw [if_pos (by omega)]
  simp

theorem optField_packWord (opc a b c : BitVec 8) (opt : BitVec 1) (imm : Block) :
    optField (packWord opc a b c opt imm) = opt := by
  refine extract_packWord fun k hk => ?_
  rw [getLsbD_packWord]
  rw [if_neg (by omega), if_pos (by omega)]
  congr 1
  omega

theorem immField_packWord (opc a b c : BitVec 8) (opt : BitVec 1) (imm : Block) :
    immField (packWord opc a b c opt imm) = imm := by
  refine extract_packWord fun k hk => ?_
  rw [getLsbD_packWord, if_pos (by omega), Nat.zero_add]

end Sys2Proof
end

