-- ==== Sys2Proof/Laws/State.lean ====
section
/-! SUPPORT. One lemma for each field of State under each named update, all true by unfolding once, so that no later
proof unfolds a record update. -/

namespace Sys2Proof.Machine

/-! ### emit -/

@[simp] theorem emit_x (g : Gate) (s : State) : (emit g s).x = applyGate g s.x := rfl
@[simp] theorem emit_gl (g : Gate) (s : State) : (emit g s).gl = s.gl ++ [gateWord g] := rfl
@[simp] theorem emit_ci (g : Gate) (s : State) : (emit g s).ci = s.ci := rfl
@[simp] theorem emit_fr (g : Gate) (s : State) : (emit g s).fr = s.fr := rfl
@[simp] theorem emit_cmds (g : Gate) (s : State) : (emit g s).cmds = s.cmds := rfl

/-! ### advance -/

@[simp] theorem advance_x (s : State) : (advance s).x = s.x := rfl
@[simp] theorem advance_gl (s : State) : (advance s).gl = s.gl := rfl
@[simp] theorem advance_ci (s : State) : (advance s).ci = s.ci + 1 := rfl
@[simp] theorem advance_fr (s : State) : (advance s).fr = s.fr := rfl
@[simp] theorem advance_cmds (s : State) : (advance s).cmds = s.cmds := rfl

/-! ### takeFault -/

@[simp] theorem takeFault_x (c : FaultCode) (w : Word) (s : State) : (takeFault c w s).x = s.x := rfl
@[simp] theorem takeFault_gl (c : FaultCode) (w : Word) (s : State) : (takeFault c w s).gl = s.gl := rfl
@[simp] theorem takeFault_ci (c : FaultCode) (w : Word) (s : State) : (takeFault c w s).ci = s.ci := rfl
@[simp] theorem takeFault_fr (c : FaultCode) (w : Word) (s : State) :
    (takeFault c w s).fr = { valid := true, code := c.byte, ci := s.ci, word := w } := rfl
@[simp] theorem takeFault_cmds (c : FaultCode) (w : Word) (s : State) : (takeFault c w s).cmds = s.cmds := rfl

/-! ### boot and the reset event -/

@[simp] theorem boot_x (n : Nat) (l : List Word) : (State.boot n l).x = List.replicate n false := rfl
@[simp] theorem boot_gl (n : Nat) (l : List Word) : (State.boot n l).gl = [] := rfl
@[simp] theorem boot_ci (n : Nat) (l : List Word) : (State.boot n l).ci = 0 := rfl
@[simp] theorem boot_fr (n : Nat) (l : List Word) : (State.boot n l).fr = FaultRecord.clear := rfl
@[simp] theorem boot_cmds (n : Nat) (l : List Word) : (State.boot n l).cmds = l := rfl
@[simp] theorem boot_nreg (n : Nat) (l : List Word) : (State.boot n l).nreg = n := List.length_replicate

theorem resetEvent_eq_boot (s : State) : resetEvent s = State.boot s.nreg s.cmds := rfl
@[simp] theorem resetEvent_nreg (s : State) : (resetEvent s).nreg = s.nreg := boot_nreg _ _
@[simp] theorem resetEvent_cmds (s : State) : (resetEvent s).cmds = s.cmds := rfl

/-! ### placeCommand -/

@[simp] theorem placeCommand_x (w : Word) (s : State) : (placeCommand w s).x = s.x := rfl
@[simp] theorem placeCommand_gl (w : Word) (s : State) : (placeCommand w s).gl = s.gl := rfl
@[simp] theorem placeCommand_ci (w : Word) (s : State) : (placeCommand w s).ci = s.ci := rfl
@[simp] theorem placeCommand_cmds (w : Word) (s : State) : (placeCommand w s).cmds = placeAt s.cmds s.ci w := rfl
@[simp] theorem placeCommand_fr (w : Word) (s : State) :
    (placeCommand w s).fr = if s.fr.valid then FaultRecord.clear else s.fr := rfl

/-! ### afterCommand and afterFault -/

@[simp] theorem afterCommand_x (i : Instr) (y : Arena) (s : State) : (afterCommand i y s).x = y := rfl
@[simp] theorem afterCommand_gl (i : Instr) (y : Arena) (s : State) :
    (afterCommand i y s).gl = s.gl ++ (expand i).map gateWord := rfl
@[simp] theorem afterCommand_ci (i : Instr) (y : Arena) (s : State) : (afterCommand i y s).ci = s.ci + 1 := rfl
@[simp] theorem afterCommand_fr (i : Instr) (y : Arena) (s : State) : (afterCommand i y s).fr = s.fr := rfl
@[simp] theorem afterCommand_cmds (i : Instr) (y : Arena) (s : State) : (afterCommand i y s).cmds = s.cmds := rfl

@[simp] theorem afterFault_x (c : BitVec 8) (w : Word) (s : State) : (afterFault c w s).x = s.x := rfl
@[simp] theorem afterFault_gl (c : BitVec 8) (w : Word) (s : State) : (afterFault c w s).gl = s.gl := rfl
@[simp] theorem afterFault_ci (c : BitVec 8) (w : Word) (s : State) : (afterFault c w s).ci = s.ci := rfl
@[simp] theorem afterFault_cmds (c : BitVec 8) (w : Word) (s : State) : (afterFault c w s).cmds = s.cmds := rfl

theorem takeFault_eq_afterFault (c : FaultCode) (w : Word) (s : State) :
    takeFault c w s = afterFault c.byte w s := rfl

end Sys2Proof.Machine
end

