-- ==== Sys2Proof/Laws/Ops.lean ====
section
/-! SUPPORT. What each shared operation can do, said once: emission, the operand checks, the run of one command, the
meaning of every instruction in terms of its expansion, and one step of the core. -/

namespace Sys2Proof.Machine

/-! ### Emission -/

@[simp] theorem emitAll_nil (s : State) : emitAll [] s = s := rfl

@[simp] theorem emitAll_cons (g : Gate) (E : List Gate) (s : State) :
    emitAll (g :: E) s = emitAll E (emit g s) := rfl

/-- Emitting a list one by one appends all its words to the log and applies all its gates to the arena. -/
theorem emitAll_eq (E : List Gate) (s : State) :
    emitAll E s = { s with x := applyGates E s.x, gl := s.gl ++ E.map gateWord } := by
  induction E generalizing s with
  | nil => simp
  | cons g E ih => rw [emitAll_cons, ih]; simp [List.append_assoc]

/-! ### The operand checks -/

/-- The checks pass exactly when every region is in range and the regions are pairwise disjoint. -/
theorem checkOperands_eq_none {nreg : Nat} {rs : List Region} :
    checkOperands nreg rs = none ↔ (∀ r ∈ rs, r.inRange nreg = true) ∧ pairwiseDisjoint rs = true := by
  unfold checkOperands firstOutOfRange
  cases h : rs.find? fun r => !r.inRange nreg with
  | some r =>
    have hm := List.mem_of_find?_eq_some h
    have hp := List.find?_some h
    simp only [reduceCtorEq, false_iff, not_and]
    intro hall
    simp [hall r hm] at hp
  | none =>
    have hall : ∀ r ∈ rs, r.inRange nreg = true := by
      intro r hr
      simpa using List.find?_eq_none.mp h r hr
    by_cases hd : pairwiseDisjoint rs = true
    · simp [hd]; exact hall
    · simp [hd]

/-- The checks raise OPERAND_RANGE exactly when some region is out of range. -/
theorem checkOperands_eq_range {nreg : Nat} {rs : List Region} :
    checkOperands nreg rs = some .operandRange ↔ ∃ r ∈ rs, r.inRange nreg = false := by
  unfold checkOperands firstOutOfRange
  cases h : rs.find? fun r => !r.inRange nreg with
  | some r =>
    have hm := List.mem_of_find?_eq_some h
    have hp := List.find?_some h
    simp only [true_iff]
    exact ⟨r, hm, by simpa using hp⟩
  | none =>
    have hall : ∀ r ∈ rs, r.inRange nreg = true := by
      intro r hr
      simpa using List.find?_eq_none.mp h r hr
    by_cases hd : pairwiseDisjoint rs = true <;> simp [hd] <;> exact hall

/-- The checks of a command's operand regions pass exactly when the command is well-formed. -/
theorem checkOperands_wellFormed (nreg : Nat) (i : Instr) :
    checkOperands nreg (operandRegions i) = none ↔ i.wellFormed nreg = true := by
  rw [checkOperands_eq_none]
  cases i <;>
    simp [operandRegions, regionsFlip, regionsCx, regionsCcx, regionsReset, regionsGfSq, regionsGfMul, regionsGfInv,
      regionsGfMul4, regionsAffine, regionsSbox, regionsSubnib, regionsSrmc, regionsKeyexp, regionsAddrk,
      regionsAddrkConst, regionsLoadc, Instr.wellFormed, Instr.inRange, Instr.disjoint, fits, apart, apart3, region,
      Region.inRange, Region.disjoint, pairwiseDisjoint, and_assoc]

/-- They raise OPERAND_RANGE exactly when an operand of the command is out of range. -/
theorem checkOperands_not_inRange (nreg : Nat) (i : Instr) :
    checkOperands nreg (operandRegions i) = some .operandRange ↔ i.inRange nreg = false := by
  rw [checkOperands_eq_range]
  cases i <;>
    simp [operandRegions, regionsFlip, regionsCx, regionsCcx, regionsReset, regionsGfSq, regionsGfMul, regionsGfInv,
      regionsGfMul4, regionsAffine, regionsSbox, regionsSubnib, regionsSrmc, regionsKeyexp, regionsAddrk,
      regionsAddrkConst, regionsLoadc, Instr.inRange, fits, region, Region.inRange] <;> omega

/-! ### Running a command -/

/-- Everything `runCommand` can do. -/
theorem runCommand_cases {w : Word} {rs : List Region} {E : List Gate} {s t : State}
    (h : runCommand w rs E s = .next t) :
    (∃ c, checkOperands s.nreg rs = some c ∧ t = takeFault c w s) ∨
    (checkOperands s.nreg rs = none ∧
      t = { s with x := applyGates E s.x, gl := s.gl ++ E.map gateWord, ci := s.ci + 1 }) := by
  unfold runCommand at h
  cases hc : checkOperands s.nreg rs with
  | some c => rw [hc] at h; exact .inl ⟨c, rfl, by injection h with h; exact h.symm⟩
  | none =>
    rw [hc] at h
    refine .inr ⟨rfl, ?_⟩
    injection h with h
    rw [← h, emitAll_eq]
    rfl

theorem runCommand_of_check {w : Word} {rs : List Region} {E : List Gate} {s : State}
    (h : checkOperands s.nreg rs = none) :
    runCommand w rs E s =
      .next { s with x := applyGates E s.x, gl := s.gl ++ E.map gateWord, ci := s.ci + 1 } := by
  unfold runCommand
  rw [h, emitAll_eq]
  rfl

/-- Every meaning is the run of its command: its word, its operand regions, its expansion (R32). -/
theorem exec_eq_runCommand (i : Instr) (s : State) :
    exec i s = runCommand (encode i) (operandRegions i) (expand i) s := by
  cases i <;> rfl

/-- A well-formed command completes. -/
theorem exec_of_wellFormed {i : Instr} {s : State} (h : i.wellFormed s.nreg = true) :
    exec i s = .next (afterCommand i (applyGates (expand i) s.x) s) := by
  rw [exec_eq_runCommand, runCommand_of_check ((checkOperands_wellFormed _ _).mpr h)]
  rfl

/-! ### One step -/

/-- Everything a step that has a next state can do: take the fault of a word that does not decode, or run the
command it decodes to. -/
theorem step_cases {s t : State} (h : step s = .next t) :
    s.fr.valid = false ∧ ∃ w, fetch s = some w ∧
      ((∃ e, decode w = .error e ∧ t = takeFault (decodeFault e) w s) ∨
       (∃ i, decode w = .ok i ∧ exec i s = .next t)) := by
  unfold step at h
  cases hv : s.fr.valid with
  | true => simp [hv] at h
  | false =>
    refine ⟨rfl, ?_⟩
    simp only [hv, Bool.false_eq_true, if_false] at h
    cases hf : fetch s with
    | none => rw [hf] at h; simp at h
    | some w =>
      rw [hf] at h
      refine ⟨w, rfl, ?_⟩
      cases hd : decode w with
      | error e =>
        simp only [hd] at h
        injection h with h
        exact .inl ⟨e, rfl, h.symm⟩
      | ok i =>
        simp only [hd] at h
        exact .inr ⟨i, rfl, h⟩

end Sys2Proof.Machine
end

