-- ==== Sys2Proof/Laws/PerInstr.lean ====
section
/-! SUPPORT. The family FieldsEncoded of statements about every command as syntax: the fields of its word are the
opcode and the operands that make the command again, and every field its opcode does not use is zero (R61, R65,
R67). -/

namespace Sys2Proof.Laws.FieldsEncoded

/-- The fields of the word of `i`: the opcode byte is that of its opcode, every unused field is zero, and the
fields put together again give `i`. -/
def Statement (i : Instr) : Prop :=
  opcField (encode i) = i.opcode.byte ∧ unusedZero i.opcode (encode i) = true ∧
    assembleFields i.opcode (aField (encode i)) (bField (encode i)) (cField (encode i)) (optField (encode i))
      (immField (encode i)) = i

/-- It holds of a command whose word is packed from its opcode byte and fields that are zero where unused. -/
theorem of_packWord {i : Instr} {a b c : RegIx} {opt : BitVec 1} {imm : Block}
    (hw : encode i = packWord i.opcode.byte a b c opt imm)
    (hu : ((i.opcode.uses.b || b == 0) && (i.opcode.uses.c || c == 0) && (i.opcode.uses.opt || opt == 0) &&
      (i.opcode.uses.imm || imm == 0)) = true)
    (ha : assembleFields i.opcode a b c opt imm = i) : Statement i := by
  unfold Statement unusedZero
  rw [hw]
  simp only [opcField_packWord, aField_packWord, bField_packWord, cField_packWord, rsvField_packWord,
    optField_packWord, immField_packWord]
  exact ⟨trivial, by simpa using hu, ha⟩

theorem flip (t : RegIx) : Statement (.flip t) := of_packWord rfl rfl rfl

theorem cx (c t : RegIx) : Statement (.cx c t) := of_packWord rfl rfl rfl

theorem ccx (c1 c2 t : RegIx) : Statement (.ccx c1 c2 t) := of_packWord rfl rfl rfl

theorem reset (t : RegIx) : Statement (.reset t) := of_packWord rfl rfl rfl

theorem gfSq (a o : RegIx) : Statement (.gfSq a o) := of_packWord rfl rfl rfl

theorem gfMul (a b c : RegIx) : Statement (.gfMul a b c) := of_packWord rfl rfl rfl

theorem gfInv (a w o : RegIx) : Statement (.gfInv a w o) := of_packWord rfl rfl rfl

theorem gfMul4 (a o : RegIx) : Statement (.gfMul4 a o) := of_packWord rfl rfl rfl

theorem affine (c b : RegIx) : Statement (.affine c b) := of_packWord rfl rfl rfl

theorem sbox (a w o : RegIx) : Statement (.sbox a w o) := of_packWord rfl rfl rfl

theorem subnib (s w o : RegIx) : Statement (.subnib s w o) := of_packWord rfl rfl rfl

theorem srmc (s w : RegIx) (c : Cleanup) : Statement (.srmc s w c) := by
  cases c <;> exact of_packWord rfl rfl rfl

theorem keyexp (k w : RegIx) (r : Round) : Statement (.keyexp k w r) := by
  cases r <;> exact of_packWord rfl rfl rfl

theorem addrk (s k : RegIx) (l : Layout) : Statement (.addrk s k l) := by
  cases l <;> exact of_packWord rfl rfl rfl

theorem addrkConst (s k : RegIx) (imm : Block) : Statement (.addrkConst s k imm) := of_packWord rfl rfl rfl

theorem loadc (b : RegIx) (imm : Block) : Statement (.loadc b imm) := of_packWord rfl rfl rfl

end Sys2Proof.Laws.FieldsEncoded
end

