-- ==== Sys2Proof/Laws/Sequences.lean ====
section
/-! SUPPORT. What the named sub-sequences compute, said once for every arena: a block of XOR-accumulations whose
targets are none of its controls adds to each register the XOR of what its gates read in the arena on entry, so each
sub-sequence is one XOR of a nibble (R105, R122, R124, R141, R172, R174). -/

namespace Sys2Proof.Machine

/-! ### Blocks of XOR-accumulations -/

/-- What a primitive adds to its target: FLIP a 1, CX its control, CCX the AND of its controls. -/
def gateBit (g : Gate) (x : Arena) : Bool :=
  match g with
  | .flip _ => true
  | .cx c _ => readReg x c
  | .ccx c1 c2 _ => readReg x c1 && readReg x c2
  | .reset _ => false

/-- The XOR of what the gates of `E` with target `j` add to it, all read in the arena `x`. -/
def gatesSum : List Gate → Arena → Nat → Bool
  | [], _, _ => false
  | g :: E, x, j => (decide (gateTarget g = j) && gateBit g x) ^^ gatesSum E x j

theorem readReg_applyGate {g : Gate} (hg : isReset g = false) {x : Arena} {j : Nat} (hj : j < x.length) :
    readReg (applyGate g x) j = (readReg x j ^^ (decide (gateTarget g = j) && gateBit g x)) := by
  cases g with
  | reset t => simp [isReset] at hg
  | flip t => by_cases h : t = j <;> simp [applyGate, gateTarget, gateBit, readReg_writeReg, h, hj]
  | cx c t => by_cases h : t = j <;> simp [applyGate, gateTarget, gateBit, readReg_writeReg, h, hj]
  | ccx c1 c2 t => by_cases h : t = j <;> simp [applyGate, gateTarget, gateBit, readReg_writeReg, h, hj]

theorem gateBit_applyGate {g h : Gate} (hc : gateTarget g ∉ gateControls h) (x : Arena) :
    gateBit h (applyGate g x) = gateBit h x := by
  cases h with
  | flip t => rfl
  | reset t => rfl
  | cx c t =>
    have : gateTarget g ≠ c := by simpa [gateControls] using hc
    simp [gateBit, readReg_applyGate_other this]
  | ccx c1 c2 t =>
    have : gateTarget g ≠ c1 ∧ gateTarget g ≠ c2 := by simpa [gateControls] using hc
    simp [gateBit, readReg_applyGate_other this.1, readReg_applyGate_other this.2]

theorem gatesSum_applyGate {g : Gate} {E : List Gate} (hc : ∀ h ∈ E, gateTarget g ∉ gateControls h) (x : Arena)
    (j : Nat) : gatesSum E (applyGate g x) j = gatesSum E x j := by
  induction E with
  | nil => rfl
  | cons h E ih =>
    simp only [gatesSum, gateBit_applyGate (hc h List.mem_cons_self),
      ih fun h' hm => hc h' (List.mem_cons_of_mem _ hm)]

/-- A block adds to every register the XOR of what its gates read in the arena on entry. -/
theorem readReg_applyGates {E : List Gate} (hr : ∀ g ∈ E, isReset g = false)
    (hc : ∀ g ∈ E, ∀ h ∈ E, gateTarget g ∉ gateControls h) {x : Arena} {j : Nat} (hj : j < x.length) :
    readReg (applyGates E x) j = (readReg x j ^^ gatesSum E x j) := by
  induction E generalizing x with
  | nil => simp [gatesSum]
  | cons g E ih =>
    rw [applyGates_cons, ih (fun g' hm => hr g' (List.mem_cons_of_mem _ hm))
      (fun g' hg h' hh => hc g' (List.mem_cons_of_mem _ hg) h' (List.mem_cons_of_mem _ hh))
      (by rwa [length_applyGate]), readReg_applyGate (hr g List.mem_cons_self) hj,
      gatesSum_applyGate (fun h' hh => hc g List.mem_cons_self h' (List.mem_cons_of_mem _ hh)), gatesSum, Bool.xor_assoc]

/-! ### From registers to nibbles -/

theorem readReg_xorNib {x : Arena} {o : Nat} (ho : o + 4 ≤ x.length) (v : Nibble) (j : Nat) :
    readReg (xorNib x o v) j =
      if o ≤ j ∧ j < o + 4 then (readReg x j ^^ v.getLsbD (j - o)) else readReg x j := by
  rw [xorNib, readReg_setNib ho]
  split
  · next h => rw [BitVec.getLsbD_xor, getLsbD_nib _ _ _ (by omega), Nat.add_sub_cancel' h.1]
  · rfl

theorem nib_xorNib_same {x : Arena} {o : Nat} (ho : o + 4 ≤ x.length) (v : Nibble) :
    nib (xorNib x o v) o = nib x o ^^^ v := nib_setNib_same ho _

theorem nib_xorNib_other {x : Arena} {o c : Nat} (ho : o + 4 ≤ x.length) (h : c + 4 ≤ o ∨ o + 4 ≤ c) (v : Nibble) :
    nib (xorNib x o v) c = nib x c := nib_setNib_other ho h _

theorem xorNib_xorNib {x : Arena} {o : Nat} (ho : o + 4 ≤ x.length) (u v : Nibble) :
    xorNib (xorNib x o u) o v = xorNib x o (u ^^^ v) := by
  apply arena_ext (by simp)
  intro j _
  rw [readReg_xorNib (by simpa using ho), readReg_xorNib ho, readReg_xorNib ho]
  split
  · rw [BitVec.getLsbD_xor, Bool.xor_assoc]
  · rfl

/-- A block with all its targets in one nibble is one XOR of that nibble. -/
theorem applyGates_eq_xorNib {E : List Gate} {x : Arena} {o : Nat} {v : Nibble} (ho : o + 4 ≤ x.length)
    (hr : ∀ g ∈ E, isReset g = false) (hc : ∀ g ∈ E, ∀ h ∈ E, gateTarget g ∉ gateControls h)
    (ht : ∀ g ∈ E, o ≤ gateTarget g ∧ gateTarget g < o + 4)
    (hv : ∀ k, k < 4 → gatesSum E x (o + k) = v.getLsbD k) : applyGates E x = xorNib x o v := by
  apply arena_ext (by simp)
  intro j hj
  rw [length_applyGates] at hj
  rw [readReg_xorNib ho]
  split
  · next h =>
    rw [readReg_applyGates hr hc hj]
    congr 1
    have := hv (j - o) (by omega)
    rwa [Nat.add_sub_cancel' h.1] at this
  · next h =>
    refine readReg_applyGates_other (fun g hg he => h ?_) x
    rw [← he]
    exact ht g hg

/-! ### CX blocks from one nibble to another -/

/-- Bit k of the image of `v` under the CX pairs of `l`. -/
def pairsBit (l : List (Nat × Nat)) (v : Nibble) (k : Nat) : Bool :=
  l.foldr (fun p acc => (decide (p.2 = k) && v.getLsbD p.1) ^^ acc) false

theorem gatesSum_cxPairs {l : List (Nat × Nat)} (hl : ∀ p ∈ l, p.1 < 4 ∧ p.2 < 4) (x : Arena) (a o k : Nat) :
    gatesSum (cxPairs a o l) x (o + k) = pairsBit l (nib x a) k := by
  induction l with
  | nil => rfl
  | cons p l ih =>
    have hp := hl p List.mem_cons_self
    have := ih fun q hq => hl q (List.mem_cons_of_mem _ hq)
    simp only [cxPairs, pairsBit, List.map_cons, List.foldr_cons, gatesSum, gateTarget, gateBit,
      Nat.add_left_cancel_iff, getLsbD_nib _ _ _ hp.1] at this ⊢
    rw [this]

/-- CX pairs between two nibbles that share no register are one XOR of the target nibble. -/
theorem applyGates_cxPairs {l : List (Nat × Nat)} (hl : ∀ p ∈ l, p.1 < 4 ∧ p.2 < 4) {x : Arena} {a o : Nat}
    (ho : o + 4 ≤ x.length) (h : a + 4 ≤ o ∨ o + 4 ≤ a) {v : Nibble}
    (hv : ∀ k, k < 4 → pairsBit l (nib x a) k = v.getLsbD k) :
    applyGates (cxPairs a o l) x = xorNib x o v := by
  apply applyGates_eq_xorNib ho
  · intro g hg
    obtain ⟨p, -, rfl⟩ := List.mem_map.mp hg
    rfl
  · intro g hg g' hg'
    obtain ⟨p, hp, rfl⟩ := List.mem_map.mp hg
    obtain ⟨q, hq, rfl⟩ := List.mem_map.mp hg'
    have := hl p hp
    have := hl q hq
    simp only [gateTarget, gateControls, List.mem_singleton]
    omega
  · intro g hg
    obtain ⟨p, hp, rfl⟩ := List.mem_map.mp hg
    have := hl p hp
    simp only [gateTarget]
    omega
  · intro k hk
    rw [gatesSum_cxPairs hl, hv k hk]

section
variable {x : Arena} {a o : Nat}

/-- CX register by register: nib(o) ^= nib(a). -/
theorem applyGates_cxNibble (ho : o + 4 ≤ x.length) (h : a + 4 ≤ o ∨ o + 4 ≤ a) :
    applyGates (cxNibble a o) x = xorNib x o (nib x a) :=
  applyGates_cxPairs (by decide) ho h (by generalize nib x a = v; revert v; decide)

/-- SQ(a, o): nib(o) ^= nib(a)^2 (R122). -/
theorem applyGates_sqSeq (ho : o + 4 ≤ x.length) (h : a + 4 ≤ o ∨ o + 4 ≤ a) :
    applyGates (sqSeq a o) x = xorNib x o (gsq (nib x a)) :=
  applyGates_cxPairs (by decide) ho h (by generalize nib x a = v; revert v; decide)

/-- MUL4SEQ(a, o): nib(o) ^= 4 * nib(a) (R172). -/
theorem applyGates_mul4Seq (ho : o + 4 ≤ x.length) (h : a + 4 ≤ o ∨ o + 4 ≤ a) :
    applyGates (mul4Seq a o) x = xorNib x o (gmul 4 (nib x a)) :=
  applyGates_cxPairs (by decide) ho h (by generalize nib x a = v; revert v; decide)

/-- MUL2SEQ(a, o): nib(o) ^= 2 * nib(a) (R174). -/
theorem applyGates_mul2Seq (ho : o + 4 ≤ x.length) (h : a + 4 ≤ o ∨ o + 4 ≤ a) :
    applyGates (mul2Seq a o) x = xorNib x o (gmul 2 (nib x a)) :=
  applyGates_cxPairs (by decide) ho h (by generalize nib x a = v; revert v; decide)

/-- MUL8SEQ(a, o): nib(o) ^= 8 * nib(a) (R174). -/
theorem applyGates_mul8Seq (ho : o + 4 ≤ x.length) (h : a + 4 ≤ o ∨ o + 4 ≤ a) :
    applyGates (mul8Seq a o) x = xorNib x o (gmul 8 (nib x a)) :=
  applyGates_cxPairs (by decide) ho h (by generalize nib x a = v; revert v; decide)

/-- Two FLIPs, of bit 0 and bit 3 of a nibble, add the constant vector 1001 (R140). -/
theorem applyGates_flip03 (ho : o + 4 ≤ x.length) : applyGates [.flip o, .flip (o + 3)] x = xorNib x o 9 := by
  apply applyGates_eq_xorNib ho
  · simp [isReset]
  · simp [gateControls]
  · simp [gateTarget]
  · intro k hk
    have hk' : k = 0 ∨ k = 1 ∨ k = 2 ∨ k = 3 := by omega
    rcases hk' with rfl | rfl | rfl | rfl <;> simp [gatesSum, gateTarget, gateBit]

/-- AFFSEQ(a, o): nib(o) ^= aff(nib(a)) (R141). -/
theorem applyGates_affSeq (ho : o + 4 ≤ x.length) (h : a + 4 ≤ o ∨ o + 4 ≤ a) :
    applyGates (affSeq a o) x = xorNib x o (aff (nib x a)) := by
  rw [affSeq, applyGates_append, applyGates_cxPairs (v := aff (nib x a) ^^^ 9) (by decide) ho h
      (by generalize nib x a = v; revert v; decide),
    applyGates_flip03 (by simpa using ho), xorNib_xorNib ho, BitVec.xor_assoc, BitVec.xor_self, BitVec.xor_zero]

end

/-! ### The multiplier -/

/-- Bit k of the image of a pair of nibbles under the AND terms of `l`. -/
def termsBit (l : List (Nat × Nat × Nat)) (u v : Nibble) (k : Nat) : Bool :=
  l.foldr (fun t acc => (decide (t.2.2 = k) && (u.getLsbD t.1 && v.getLsbD t.2.1)) ^^ acc) false

/-- The 22 AND terms of R121 are the product in the field. -/
theorem termsBit_mulTerms : ∀ (u v : Nibble) (k : Nat), k < 4 → termsBit mulTerms u v k = (gmul u v).getLsbD k := by
  decide

/-- MULSEQ(a, b, c): nib(c) ^= nib(a) * nib(b) (R124). -/
theorem applyGates_mulSeq {x : Arena} {a b c : Nat} (hc : c + 4 ≤ x.length) (ha : a + 4 ≤ c ∨ c + 4 ≤ a)
    (hb : b + 4 ≤ c ∨ c + 4 ≤ b) : applyGates (mulSeq a b c) x = xorNib x c (gmul (nib x a) (nib x b)) := by
  have hl : ∀ t ∈ mulTerms, t.1 < 4 ∧ t.2.1 < 4 ∧ t.2.2 < 4 := by decide
  apply applyGates_eq_xorNib hc
  · intro g hg
    obtain ⟨t, -, rfl⟩ := List.mem_map.mp hg
    rfl
  · intro g hg g' hg'
    obtain ⟨t, ht, rfl⟩ := List.mem_map.mp hg
    obtain ⟨u, hu, rfl⟩ := List.mem_map.mp hg'
    have := hl t ht
    have := hl u hu
    simp only [gateTarget, gateControls, List.mem_cons, List.not_mem_nil, or_false]
    omega
  · intro g hg
    obtain ⟨t, ht, rfl⟩ := List.mem_map.mp hg
    have := hl t ht
    simp only [gateTarget]
    omega
  · intro k hk
    rw [← termsBit_mulTerms _ _ _ hk]
    unfold mulSeq
    generalize mulTerms = l at hl
    induction l with
    | nil => rfl
    | cons t l ih =>
      have ht := hl t List.mem_cons_self
      have := ih fun u hu => hl u (List.mem_cons_of_mem _ hu)
      simp only [termsBit, List.map_cons, List.foldr_cons, gatesSum, gateTarget, gateBit, Nat.add_left_cancel_iff,
        getLsbD_nib _ _ _ ht.1, getLsbD_nib _ _ _ ht.2.1] at this ⊢
      rw [this]

/-- for k in 0..3: RESET(t+k) clears the nibble. -/
theorem applyGates_resetNibble (x : Arena) (t : Nat) : applyGates (resetNibble t) x = setNib x t 0 := rfl

end Sys2Proof.Machine
end

