-- ==== Sys2Proof/Tests/Slice0.lean ====
section
/-! SUPPORT. The model's own tests. Every expected value comes from spec/: the worked encodings of R78, the vectors V1
to V15 of 95_test_vectors.md, the examples of the command rules, or words written out from the fields of R61. The
witnesses at the end show states and operands that meet the hypotheses of the statements. -/

namespace Sys2Proof.Tests

open Sys2Proof Sys2Proof.Machine

/-! ### WellFormed refuses ill-formed commands, each check in turn -/

theorem test_range_one : (Instr.flip 68).wellFormed 68 = false := by decide
theorem test_range_boundary : (Instr.flip 67).wellFormed 68 = true := by decide
theorem test_range_first : (Instr.cx 68 0).wellFormed 68 = false := by decide
theorem test_range_second : (Instr.gfMul 0 66 0).inRange 68 = false := by decide
theorem test_range_third : (Instr.subnib 0 32 53).wellFormed 68 = false := by decide
theorem test_range_block : (Instr.loadc 53 1).wellFormed 68 = false := by decide
theorem test_range_block_boundary : (Instr.loadc 52 1).wellFormed 68 = true := by decide
theorem test_overlap_cx : (Instr.cx 3 3).wellFormed 68 = false := by decide
theorem test_overlap_ccx_controls : (Instr.ccx 0 0 8).wellFormed 68 = false := by decide
theorem test_overlap_ccx_first : (Instr.ccx 4 0 4).wellFormed 68 = false := by decide
theorem test_overlap_ccx_target : (Instr.ccx 0 4 4).wellFormed 68 = false := by decide
theorem test_overlap_sq : (Instr.gfSq 0 3).wellFormed 68 = false := by decide
theorem test_overlap_mul : (Instr.gfMul 0 0 8).wellFormed 68 = false := by decide
theorem test_overlap_mul4 : (Instr.gfMul4 4 1).wellFormed 68 = false := by decide
theorem test_overlap_affine : (Instr.affine 4 7).wellFormed 68 = false := by decide
theorem test_overlap_inv : (Instr.gfInv 0 4 8).wellFormed 68 = false := by decide
theorem test_overlap_sbox : (Instr.sbox 0 32 40).wellFormed 68 = false := by decide
theorem test_overlap_subnib : (Instr.subnib 0 15 40).wellFormed 68 = false := by decide
theorem test_overlap_srmc : (Instr.srmc 0 8 .clean).wellFormed 68 = false := by decide
theorem test_overlap_keyexp : (Instr.keyexp 16 24 .one).wellFormed 68 = false := by decide
theorem test_overlap_addrk : (Instr.addrk 0 8 .ident).wellFormed 68 = false := by decide
theorem test_overlap_addrkConst : (Instr.addrkConst 8 0 1).wellFormed 68 = false := by decide

/-! ### Decoding: a word of every command, written out field by field from R61 and R65 -/

theorem test_decode_flip : decode 0x0103000000000000 = .ok (.flip 3) := by decide
theorem test_decode_cx : decode 0x0200040000000000 = .ok (.cx 0 4) := by decide
theorem test_decode_ccx : decode 0x0300040800000000 = .ok (.ccx 0 4 8) := by decide
theorem test_decode_reset : decode 0x0405000000000000 = .ok (.reset 5) := by decide
theorem test_decode_gfSq : decode 0x10080C0000000000 = .ok (.gfSq 8 12) := by decide
theorem test_decode_gfMul : decode 0x1100040800000000 = .ok (.gfMul 0 4 8) := by decide
theorem test_decode_gfInv : decode 0x1200203400000000 = .ok (.gfInv 0 32 52) := by decide
theorem test_decode_gfMul4 : decode 0x1300040000000000 = .ok (.gfMul4 0 4) := by decide
theorem test_decode_affine : decode 0x2000040000000000 = .ok (.affine 0 4) := by decide
theorem test_decode_sbox : decode 0x3000203400000000 = .ok (.sbox 0 32 52) := by decide
theorem test_decode_subnib : decode 0x3100203400000000 = .ok (.subnib 0 32 52) := by decide
theorem test_decode_srmc : decode 0x4000200000000000 = .ok (.srmc 0 32 .clean) := by decide
theorem test_decode_srmc_noclean : decode 0x4000200000010000 = .ok (.srmc 0 32 .noclean) := by decide
theorem test_decode_keyexp : decode 0x5010200000000000 = .ok (.keyexp 16 32 .one) := by decide
theorem test_decode_keyexp_two : decode 0x5010200000010000 = .ok (.keyexp 16 32 .two) := by decide
theorem test_decode_addrk : decode 0x6000100000000000 = .ok (.addrk 0 16 .ident) := by decide
theorem test_decode_addrk_swap : decode 0x6000100000010000 = .ok (.addrk 0 16 .swap13) := by decide
theorem test_decode_addrkConst : decode 0x6100100000004AF5 = .ok (.addrkConst 0 16 0x4AF5) := by decide
theorem test_decode_loadc : decode 0x620000000000D728 = .ok (.loadc 0 0xD728) := by decide

/-- The word of KEYEXP 16, 32, 2, bit by bit: OPC 0x50, A 16, B 32, C 0, RSV 0, OPT 1, IMM 0 (R61). -/
theorem test_encode_bits : encode (.keyexp 16 32 .two) =
    0b01010000_00010000_00100000_00000000_000000000000000_1_0000000000000000 := by decide

theorem test_decode_reserved : decode 0x0503000000020000 = .error .illegalOpcode := by decide
theorem test_decode_rsv : decode 0x0103000000020000 = .error .illegalEncoding := by decide
theorem test_decode_unused_b : decode 0x0103010000000000 = .error .illegalEncoding := by decide
theorem test_decode_unused_c : decode 0x6100100100004AF5 = .error .illegalEncoding := by decide
theorem test_decode_unused_opt : decode 0x1000040000010000 = .error .illegalEncoding := by decide
theorem test_decode_unused_imm : decode 0x1000040000000001 = .error .illegalEncoding := by decide

theorem test_tableWord : decodeTableWord 64 0x4000200000010000 = some (.srmc 0 32 .noclean) := by decide

/-! ### One step of each command -/

/-- An arena of `n` registers with the nibbles listed, each at its base, and the one command `w`. -/
def given (n : Nat) (w : Word) (l : List (Nat × Nibble)) : State :=
  { State.boot n [w] with x := l.foldl (fun x p => setNib x p.1 p.2) (List.replicate n false) }

/-- The state after one step. -/
def after (s : State) : State :=
  match step s with
  | .next t => t
  | _ => s

-- V9
theorem test_flip : (after (given 68 0x0143000000000000 [])).x = List.replicate 67 false ++ [true] := by decide
theorem test_flip_log : (after (given 68 0x0143000000000000 [])).gl = [0x0143000000000000] := by decide
theorem test_cx : (after (given 9 0x0200040000000000 [(0, 1), (4, 1)])).x.take 8 =
    [true, false, false, false, false, false, false, false] := by decide
theorem test_cx_control_zero : (after (given 9 0x0200040000000000 [(0, 2), (4, 1)])).x =
    (given 9 0 [(0, 2), (4, 1)]).x := by decide
theorem test_ccx : nib (after (given 12 0x0300040800000000 [(0, 1), (4, 1)])).x 8 = 1 := by decide
theorem test_ccx_one_control : nib (after (given 12 0x0300040800000000 [(0, 1), (4, 2)])).x 8 = 0 := by decide
theorem test_reset : (after (given 8 0x0405000000000000 [(4, 0xF)])).x =
    [false, false, false, false, true, false, true, true] := by decide

-- R123, V4
theorem test_gfSq : nib (after (given 8 0x1000040000000000 [(0, 2)])).x 4 = 4 := by decide +kernel
theorem test_gfSq_log : (expand (.gfSq 0 4)).map gateWord =
    [0x0200040000000000, 0x0202040000000000, 0x0202050000000000, 0x0201060000000000, 0x0203060000000000,
      0x0203070000000000] := by decide
-- V2: 2 * 8 = 3, and into a register that is not clean 5 ^ 2*3 = 3
theorem test_gfMul : nib (after (given 12 0x1100040800000000 [(0, 2), (4, 8)])).x 8 = 3 := by decide +kernel
theorem test_gfMul_dirty : nib (after (given 12 0x1100040800000000 [(0, 2), (4, 3), (8, 5)])).x 8 = 3 := by
  decide +kernel
-- R129
theorem test_gfInv : (after (given 24 0x1200041400000000 [(0, 2)])).x = (given 24 0 [(0, 2), (20, 9)]).x := by
  decide +kernel
-- R173
theorem test_gfMul4 : nib (after (given 8 0x1300040000000000 [(0, 4)])).x 4 = 3 := by decide +kernel
theorem test_gfMul4_log : (expand (.gfMul4 0 4)).map gateWord =
    [0x0202040000000000, 0x0202050000000000, 0x0203050000000000, 0x0200060000000000, 0x0203060000000000,
      0x0201070000000000] := by decide
-- R142, V4
theorem test_affine : nib (after (given 8 0x2000040000000000 [(0, 1)])).x 4 = 4 := by decide +kernel
theorem test_affine_log : (expand (.affine 0 4)).map gateWord =
    [0x0200040000000000, 0x0201040000000000, 0x0202040000000000, 0x0201050000000000, 0x0202050000000000,
      0x0203050000000000, 0x0200060000000000, 0x0202060000000000, 0x0203060000000000, 0x0200070000000000,
      0x0201070000000000, 0x0203070000000000, 0x0104000000000000, 0x0107000000000000] := by decide
-- R152
theorem test_sbox : (after (given 28 0x3000041800000000 [(0, 1)])).x = (given 28 0 [(0, 1), (24, 4)]).x := by
  decide +kernel
-- R156, V7: 0x1234 becomes 0x4ABD
theorem test_subnib : (after (given 52 0x3100102400000000 [(0, 1), (4, 2), (8, 3), (12, 4)])).x =
    (given 52 0 [(0, 4), (4, 0xA), (8, 0xB), (12, 0xD)]).x := by decide +kernel
-- R176, V8
theorem test_srmc : (after (given 32 0x4000100000000000 [(0, 2), (4, 0xE), (8, 0xE), (12, 0xE)])).x =
    (given 32 0 [(0, 0xF), (4, 3), (8, 3), (12, 6)]).x := by decide +kernel
theorem test_srmc_noclean : (after (given 32 0x4000100000010000 [(0, 1), (4, 2), (8, 3), (12, 4)])).x =
    (given 32 0 [(0, 2), (4, 0xE), (8, 0xB), (12, 0), (16, 4), (20, 3), (24, 8), (28, 0xC)]).x := by decide +kernel
-- R191
theorem test_keyexp_one : (after (given 36 0x5000100000000000 [(0, 4), (4, 0xA), (8, 0xF), (12, 5)])).x =
    (given 36 0 [(0, 0xD), (4, 0xD), (8, 2), (12, 8)]).x := by decide +kernel
theorem test_keyexp_two : (after (given 36 0x5000100000010000 [(0, 0xD), (4, 0xD), (8, 2), (12, 8)])).x =
    (given 36 0 [(0, 8), (4, 7), (8, 0xA), (12, 0xF)]).x := by decide +kernel
-- R221, V12: state 0x1234, key 0xABCD
theorem test_addrk : val16 (after (given 32 0x6000100000000000 [(0, 1), (4, 2), (8, 3), (12, 4), (16, 0xA),
    (20, 0xB), (24, 0xC), (28, 0xD)])).x 0 = 0xB9F9 := by decide +kernel
theorem test_addrk_swap13 : val16 (after (given 32 0x6000100000010000 [(0, 1), (4, 2), (8, 3), (12, 4), (16, 0xA),
    (20, 0xB), (24, 0xC), (28, 0xD)])).x 0 = 0xBFFF := by decide +kernel
-- V12: key 0x00FF and imm 0x0F0F, in one block of 32 registers
theorem test_addrkConst : (after (given 32 0x6100100000000F0F [(24, 0xF), (28, 0xF)])).x =
    (given 32 0 [(4, 0xF), (20, 0xF), (24, 0xF)]).x := by decide +kernel
theorem test_addrkConst_gates : (expand (.addrkConst 0 16 0x4AF5)).take 4 =
    [.flip 18, .cx 18 2, .flip 23, .cx 23 7] := by decide
-- R225
theorem test_loadc : val16 (after (given 16 0x620000000000D728 [])).x 0 = 0xD728 := by decide +kernel
theorem test_loadc_gates : expand (.loadc 0 0xD728) =
    [.flip 3, .flip 2, .flip 0, .flip 6, .flip 5, .flip 4, .flip 9, .flip 15] := by decide

/-! ### Faults, the end of a run, and reset (V15, R32, R30) -/

theorem test_fault_opcode : after (given 68 0xFF00000000000000 []) =
    afterFault 0x01 0xFF00000000000000 (given 68 0xFF00000000000000 []) := by decide
theorem test_fault_encoding_first : (after (given 68 0x01C8000000020000 [])).fr =
    { valid := true, code := 0x02, ci := 0, word := 0x01C8000000020000 } := by decide
theorem test_fault_range : after (given 68 0x0144000000000000 []) =
    afterFault 0x03 0x0144000000000000 (given 68 0x0144000000000000 []) := by decide
theorem test_fault_range_first : (after (given 68 0x1100420000000000 [])).fr.code = 0x03 := by decide
theorem test_fault_overlap : after (given 68 0x4000080000000000 []) =
    afterFault 0x04 0x4000080000000000 (given 68 0x4000080000000000 []) := by decide
theorem test_reset_ends : step State.reset = .fault .runCompleted := rfl
theorem test_faulted_ends : step (after (given 68 0 [])) = .fault .runFaulted := rfl
theorem test_completed_ends : step (after (given 68 0x0103000000000000 [])) = .fault .runCompleted := rfl
theorem test_withFetchWord : (after (State.reset.withFetchWord 64 0x0103000000000000)).gl = [0x0103000000000000] := by
  decide
theorem test_withFetchWord_late : placeAt [1, 2] 3 7 = [1, 2, 0, 7] := by decide

/-! ### Values (V1, V6, V10, V11) -/

/-- The sixteen nibbles in order. -/
def nibbles : List Nibble := (List.range 16).map (BitVec.ofNat 4)

theorem test_ginv : nibbles.map ginv = [0, 1, 9, 0xE, 0xD, 0xB, 7, 6, 0xF, 2, 0xC, 5, 0xA, 4, 3, 8] := by decide
theorem test_aff : nibbles.map aff = [9, 4, 2, 0xF, 0xE, 3, 5, 8, 7, 0xA, 0xC, 1, 0, 0xD, 0xB, 6] := by decide
theorem test_sbox_is_aff_inv : ∀ a : Nibble, sboxVal a = aff (ginv a) := by decide
theorem test_mul4 : nibbles.map (gmul 4) = [0, 4, 8, 0xC, 3, 7, 0xB, 0xF, 6, 2, 0xE, 0xA, 5, 1, 0xD, 9] := by decide
theorem test_gmul_row : nibbles.map (gmul 0xB) = [0, 0xB, 5, 0xE, 0xA, 1, 0xF, 4, 7, 0xC, 2, 9, 0xD, 6, 8, 3] := by
  decide
theorem test_inverse : ∀ a : Nibble, a ≠ 0 → gmul a (ginv a) = 1 := by decide

theorem test_roundKeys : roundKeys 0x4AF5 = [0x4AF5, 0xDD28, 0x87AF] := by decide
theorem test_generateRoundKeys : generateRoundKeys "0101010101010101".toList =
    .ok ["0101010101010101".toList, "1100010010010001".toList, "1011011000100111".toList] := by decide
theorem test_parse16_spaces : parse16 "0100 1010 1111 0101".toList = .ok 0x4AF5 := by decide
theorem test_parse16_short : parse16 "010010101111010".toList = .error .inputValidation := by decide
theorem test_parse16_other : parse16 "010010101111010x".toList = .error .inputValidation := by decide
theorem test_parse16_tab : parse16 "0100\t101011110101".toList = .error .inputValidation := by decide

/-! ### The assembler (R73, R77) and the layout map (R178) -/

theorem test_asm_string : assembleLine "ADDRK_CONST 0, 16, \"0100 1010 1111 0101\" ; round 0".toList =
    .ok (some (.command (.addrkConst 0 16 0x4AF5))) := by decide
theorem test_asm_shiftRows : assembleLine " SHIFTROWS".toList = .ok (some .shiftRows) := by decide
theorem test_asm_hex : assembleLine "CX 0x0f,7".toList = .ok (some (.command (.cx 15 7))) := by decide
theorem test_asm_range : assembleLine "FLIP 256".toList = .error .badRegister := by decide
theorem test_asm_round : assembleLine "KEYEXP 16, 32".toList = .error .operandCount := by decide
theorem test_layouts : (List.range 10).map (fun n => layoutOfItems ((roundOrder 0 16 32 52 0 0).take (n + 1))) =
    [.ident, .ident, .ident, .ident, .swap13, .swap13, .swap13, .swap13, .ident, .ident] := by decide
theorem test_encryption_words : encryptionCommands 0xD728 0x4AF5 =
    [0x620000000000D728, 0x6100100000004AF5, 0x3100203400000000, 0x5010200000000000, 0x4000200000000000,
      0x6000100000010000, 0x3100203400000000, 0x5010200000010000, 0x6000100000000000] := by decide

/-! ### Witnesses: states and operands that meet the hypotheses of the statements, clause by clause -/

/-- 68 registers, all 0, and the one command `w` to run. -/
def fresh (w : Word) : State := State.boot 68 [w]

theorem witness_ResetValues_reset : ∃ t : State, (t = State.reset ∨ ∃ s, t = resetEvent s) ∧ 67 < t.nreg :=
  ⟨State.reset, .inl rfl, by decide⟩
theorem witness_ResetValues_event : ∃ t : State, (t = State.reset ∨ ∃ s, t = resetEvent s) ∧ t.cmds = [0] :=
  ⟨resetEvent (after (fresh 0)), .inr ⟨_, rfl⟩, by decide⟩
theorem witness_InvariantAtReset :
    Config.legalNReg 1 = true ∧ Config.legalNReg 256 = true ∧ Config.legalNReg 0 = false ∧
      Config.legalNReg 257 = false := by decide

theorem witness_StepKeepsInvariant_command :
    Sound (fresh 0x0143000000000000) ∧
      step (fresh 0x0143000000000000) = .next (after (fresh 0x0143000000000000)) := ⟨by unfold Sound; decide, rfl⟩
theorem witness_StepKeepsInvariant_fault :
    Sound (fresh 0x0144000000000000) ∧
      step (fresh 0x0144000000000000) = .next (after (fresh 0x0144000000000000)) := ⟨by unfold Sound; decide, rfl⟩

theorem witness_StepRunsDecodedCommand :
    (fresh 0x0103000000000000).fr.valid = false ∧
      (fresh 0x0103000000000000).cmds[(fresh 0x0103000000000000).ci]? = some 0x0103000000000000 ∧
      decode 0x0103000000000000 = .ok (.flip 3) := by decide

theorem witness_FaultEntry_fetch (w : Word) :
    (fresh w).fr.valid = false ∧ (fresh w).cmds[(fresh w).ci]? = some w := ⟨rfl, rfl⟩
theorem witness_FaultEntry_opcode : decode 0x63FFFFFFFFFFFFFF = .error .illegalOpcode := by decide
theorem witness_FaultEntry_encoding : decode 0x01FF000000000001 = .error .illegalEncoding := by decide
theorem witness_FaultEntry_range :
    decode 0x1000410000000000 = .ok (.gfSq 0 65) ∧ (Instr.gfSq 0 65).inRange (fresh 0).nreg = false ∧
      (Instr.gfSq 0 64).inRange (fresh 0).nreg = true := by decide
theorem witness_FaultEntry_overlap :
    decode 0x1000030000000000 = .ok (.gfSq 0 3) ∧ (Instr.gfSq 0 3).inRange (fresh 0).nreg = true ∧
      (Instr.gfSq 0 3).disjoint = false ∧ (Instr.gfSq 0 4).disjoint = true := by decide

theorem witness_OperandChecksDecide :
    (Instr.subnib 0 16 53).inRange (fresh 0).nreg = false ∧
      ((Instr.subnib 0 16 35).inRange (fresh 0).nreg = true ∧ (Instr.subnib 0 16 35).disjoint = false) ∧
      (Instr.subnib 0 16 36).wellFormed (fresh 0).nreg = true ∧
      (Instr.subnib 0 16 52).wellFormed (fresh 0).nreg = true := by decide
theorem witness_OverlapMeansSharedRegister :
    apart 252 4 248 4 = true ∧ apart 252 4 249 4 = false ∧ apart 3 1 3 1 = false := by decide

theorem witness_RunEnds_running :
    (fresh 0).fr.valid = false ∧ (fresh 0).ci < (fresh 0).cmds.length := by decide
theorem witness_StepIsWholeCommandOrFault_command :
    step (fresh 0x0103000000000000) = .next (after (fresh 0x0103000000000000)) := rfl
theorem witness_StepIsWholeCommandOrFault_fault : step (fresh 0) = .next (after (fresh 0)) := rfl

theorem witness_ReservedOpcodesRefused :
    reservedOpcode (opcField 0x0000000000000000).toNat = true ∧
      reservedOpcode (opcField 0x0500000000000000).toNat = true ∧
      reservedOpcode (opcField 0x6300000000000000).toNat = true ∧
      reservedOpcode (opcField 0xFF00000000000000).toNat = true := by decide
theorem witness_UnusedFieldsRefused_fields :
    reservedOpcode (opcField 0x0103000000020000).toNat = false ∧
      reservedOpcode (opcField 0x6200010000000000).toNat = false ∧
      reservedOpcode (opcField 0x1000040100000000).toNat = false ∧
      reservedOpcode (opcField 0x6200000000010000).toNat = false ∧
      reservedOpcode (opcField 0x6000100000000001).toNat = false := by decide
theorem witness_UnusedFieldsRefused_once : ∃ (v w : Word) (i : Instr), decode v = .ok i ∧ decode w = .ok i :=
  ⟨0x0103000000000000, 0x0103000000000000, .flip 3, by decide, by decide⟩
theorem witness_EncodeOfDecode : decode 0x62FF00000000FFFF = .ok (.loadc 255 0xFFFF) := by decide
theorem witness_WorkedEncodings :
    ("LOADC 0, 0xD728".toList, 0x620000000000D728#64, Instr.loadc 0 0xD728) ∈ workedEncodings := by decide

theorem witness_ExpansionsNeverFault :
    (Instr.gfSq 60 64).wellFormed 68 = true ∧ 68 ≤ Config.maxNReg ∧ Gate.cx 63 67 ∈ expand (.gfSq 60 64) := by decide

theorem witness_PrimitiveLaws_inverse :
    gateValid 3 (.ccx 0 1 2) = true ∧ isReset (.ccx 0 1 2) = false := by decide
theorem witness_PrimitiveLaws_list :
    ∀ g ∈ [Gate.flip 0, .cx 0 1, .ccx 0 1 2], gateValid 3 g = true ∧ isReset g = false := by decide
theorem witness_PrimitiveLaws_commute :
    ∀ p ∈ [(Gate.cx 0 2, Gate.ccx 0 1 2), (.reset 2, .reset 2), (.reset 2, .cx 0 1)],
      gateValid 3 p.1 = true ∧ gateValid 3 p.2 = true ∧ gateTarget p.1 ∉ gateControls p.2 ∧
        gateTarget p.2 ∉ gateControls p.1 ∧ (gateTarget p.1 ≠ gateTarget p.2 ∨ isReset p.1 = isReset p.2) := by
  decide
theorem witness_UncomputeRestores :
    ∀ B ∈ invUp 0 4, ∀ g ∈ B, gateValid (List.replicate 20 true).length g = true ∧ isReset g = false ∧
      ∀ h ∈ B, gateTarget g ∉ gateControls h := by decide +kernel
theorem witness_ReversibleCommands_undone :
    (Instr.srmc 0 52 .noclean).wellFormed (List.replicate 68 true).length = true ∧
      reversible (.srmc 0 52 .noclean) = true := by decide
theorem witness_ReversibleCommands_not :
    ((Instr.reset 67).wellFormed 68 = true ∧ reversible (.reset 67) = false) ∧
      (Instr.subnib 0 32 52).wellFormed 68 = true ∧ reversible (.subnib 0 32 52) = false := by decide

theorem witness_LogReplaysToArena :
    Config.legalNReg 68 = true ∧
      Host.Core.run Sys2Proof.core 1 (State.boot 68 [0x0143000000000000]) =
        .next (after (fresh 0x0143000000000000)) := ⟨by decide, rfl⟩
theorem witness_LogRerunsToSameArena_words :
    (Instr.gfSq 252 248).wellFormed (State.boot 256 []).nreg = true ∧
      (State.boot 256 []).nreg ≤ Config.maxNReg := by decide +kernel
theorem witness_LogRerunsToSameArena :
    Sound (after (fresh 0x0143000000000000)) ∧ (after (fresh 0x0143000000000000)).gl ≠ [] :=
  ⟨by unfold Sound; decide, by decide⟩
theorem witness_LogIsWriteOnly :
    step (given 8 0x0405000000000000 [(4, 0xF)]) = .next (after (given 8 0x0405000000000000 [(4, 0xF)])) := rfl
theorem witness_LogIsDataIndependent :
    step (given 8 0x0405000000000000 [(4, 0xF)]) = .next (after (given 8 0x0405000000000000 [(4, 0xF)])) ∧
      (List.replicate 8 true).length = (given 8 0x0405000000000000 [(4, 0xF)]).x.length := ⟨rfl, by decide⟩
theorem witness_OnlyOperandRegionsChange :
    exec (.flip 3) (fresh 0) = .next (afterCommand (.flip 3) (writeReg (fresh 0).x 3 true) (fresh 0)) ∧
      (∀ r ∈ operandRegions (.flip 3), ¬(r.base ≤ 4 ∧ 4 < r.base + r.size)) := ⟨rfl, by decide⟩

theorem witness_FlipCommand :
    ((67 : RegIx).toNat < (fresh 0).nreg ∧ (fresh 0).nreg ≤ (68 : RegIx).toNat) ∧
      opcField 0x0103000000000000 = 0x01 ∧ opcField 0x0103000000000001 = 0x01 := by decide
theorem witness_FlipCommand_twice :
    exec (.flip 67) (fresh 0) = .next (afterCommand (.flip 67) (writeReg (fresh 0).x 67 true) (fresh 0)) ∧
      exec (.flip 67) (afterCommand (.flip 67) (writeReg (fresh 0).x 67 true) (fresh 0)) =
        .next (afterCommand (.flip 67) (fresh 0).x
          (afterCommand (.flip 67) (writeReg (fresh 0).x 67 true) (fresh 0))) := ⟨rfl, rfl⟩
theorem witness_CxCommand :
    ((67 : RegIx).toNat < (fresh 0).nreg ∧ (66 : RegIx).toNat < (fresh 0).nreg ∧ (67 : RegIx) ≠ 66) ∧
      (fresh 0).nreg ≤ (68 : RegIx).toNat ∧ opcField 0x0200040000000000 = 0x02 := by decide
theorem witness_CxCommand_twice : ∃ u v : State,
    exec (.cx 66 67) (given 68 0 [(64, 4)]) = .next u ∧ exec (.cx 66 67) u = .next v := ⟨_, _, rfl, rfl⟩
theorem witness_CcxCommand :
    (Instr.ccx 65 66 67).wellFormed (fresh 0).nreg = true ∧ (fresh 0).nreg ≤ (68 : RegIx).toNat ∧
      opcField 0x0300040800000000 = 0x03 := by decide
theorem witness_CcxCommand_twice : ∃ u v : State,
    exec (.ccx 65 66 67) (given 68 0 [(64, 6)]) = .next u ∧ exec (.ccx 65 66 67) u = .next v := ⟨_, _, rfl, rfl⟩
theorem witness_ResetCommand :
    (67 : RegIx).toNat < (fresh 0).nreg ∧ (fresh 0).nreg ≤ (68 : RegIx).toNat ∧
      opcField 0x0405000000000000 = 0x04 := by decide
theorem witness_ResetCommand_twice : ∃ u v : State,
    exec (.reset 67) (given 68 0 [(64, 8)]) = .next u ∧ exec (.reset 67) u = .next v := ⟨_, _, rfl, rfl⟩
theorem witness_ResetCommand_only : Gate.reset 0 ∈ expand (.subnib 0 32 52) ∧ isReset (.reset 0) = true := by
  decide +kernel

theorem witness_GfSqResult : (Instr.gfSq 60 64).wellFormed (given 68 0 [(60, 2)]).nreg = true := by decide
theorem witness_GfMulResult : (Instr.gfMul 56 60 64).wellFormed (given 68 0 [(56, 2), (60, 8)]).nreg = true := by
  decide
theorem witness_GfMul4Result : (Instr.gfMul4 64 60).wellFormed (given 68 0 [(64, 4)]).nreg = true := by decide
theorem witness_AffineResult : (Instr.affine 64 0).wellFormed (given 68 0 [(64, 1)]).nreg = true := by decide
theorem witness_GfInvResult :
    (Instr.gfInv 0 52 4).wellFormed (given 68 0 [(0, 2), (4, 7)]).nreg = true ∧
      clean (given 68 0 [(0, 2), (4, 7)]).x 52 16 = true := by decide
theorem witness_SboxResult :
    (Instr.sbox 0 48 4).wellFormed (given 68 0 [(0, 2), (4, 7)]).nreg = true ∧
      clean (given 68 0 [(0, 2), (4, 7)]).x 48 20 = true := by decide
theorem witness_SubnibResult :
    (Instr.subnib 0 32 52).wellFormed (given 68 0 [(0, 2), (52, 7)]).nreg = true ∧
      clean (given 68 0 [(0, 2), (52, 7)]).x 32 20 = true := by decide
theorem witness_SrmcResult : (Instr.srmc 0 52 .clean).wellFormed (given 68 0 [(0, 2), (64, 7)]).nreg = true := by
  decide
theorem witness_SrmcNocleanResult :
    (Instr.srmc 0 52 .noclean).wellFormed (given 68 0 [(0, 2), (64, 7)]).nreg = true := by decide
theorem witness_SrmcMixesShiftedRows :
    (Instr.srmc 0 16 .noclean).wellFormed (given 68 0 [(0, 2), (12, 7)]).nreg = true ∧
      clean (given 68 0 [(0, 2), (12, 7)]).x 16 16 = true := by decide
theorem witness_KeyexpResult :
    (Instr.keyexp 16 32 .two).wellFormed (given 68 0 [(16, 0xD), (28, 8)]).nreg = true ∧
      clean (given 68 0 [(16, 0xD), (28, 8)]).x 32 20 = true := by decide
theorem witness_KeyexpMatchesClassical :
    (Instr.keyexp 16 32 .one).wellFormed (given 68 0 [(16, 4), (20, 0xA), (24, 0xF), (28, 5)]).nreg = true ∧
      val16 (given 68 0 [(16, 4), (20, 0xA), (24, 0xF), (28, 5)]).x 16 = 0x4AF5 ∧
      clean (given 68 0 [(16, 4), (20, 0xA), (24, 0xF), (28, 5)]).x 32 20 = true := by decide +kernel
theorem witness_AddrkResult :
    (Instr.addrk 0 52 .ident).wellFormed (given 68 0 [(0, 1), (52, 0xA)]).nreg = true ∧
      (Instr.addrk 52 0 .swap13).wellFormed (given 68 0 [(0, 1), (52, 0xA)]).nreg = true := by decide
theorem witness_AddrkAddsRoundKey : ∃ t : State,
    (Instr.addrk 0 52 .swap13).wellFormed (given 68 0 [(56, 0xA)]).nreg = true ∧
      exec (.addrk 0 52 .swap13) (given 68 0 [(56, 0xA)]) = .next t :=
  ⟨_, by decide, rfl⟩
theorem witness_AddrkConstResult :
    (Instr.addrkConst 0 52 0x8001).wellFormed (given 68 0 [(0, 1)]).nreg = true ∧
      clean (given 68 0 [(0, 1)]).x 52 16 = true ∧
      (Instr.addrkConst 0 52 0).wellFormed (given 68 0 [(52, 1)]).nreg = true := by decide
theorem witness_LoadcResult :
    (Instr.loadc 52 0x8001).wellFormed (given 68 0 [(0, 1)]).nreg = true ∧
      clean (given 68 0 [(0, 1)]).x 52 16 = true := by decide
theorem witness_ContractsKept :
    (Instr.subnib 0 32 52).wellFormed (given 68 0 [(0, 1)]).nreg = true ∧
      allClean (given 68 0 [(0, 1)]).x (needsClean (.subnib 0 32 52)) = true := by decide

theorem witness_Parse16Rule_short : ("1 ".toList.filter fun c => c != ' ').length ≠ 16 := by decide
theorem witness_Parse16Rule_other :
    ∃ c ∈ "0101010101010102".toList.filter (fun c => c != ' '), c ≠ '0' ∧ c ≠ '1' := ⟨'2', by decide, by decide⟩
theorem witness_Parse16Rule_good :
    ((' ' :: List.replicate 16 '1').filter fun c => c != ' ').length = 16 ∧
      ∀ c ∈ (' ' :: List.replicate 16 '1').filter (fun c => c != ' '), c = '0' ∨ c = '1' := by
  constructor
  · decide
  · intro c hc
    simp at hc
    exact .inr hc
theorem witness_KeyStringsRoundTrip : parse16 "".toList = .error .inputValidation := by decide

end Sys2Proof.Tests
end

section
/-! Reset (R30): `State.reset` and the reset event both answer a boot state, so their values are read off `State.boot`
once, for every NREG and every command list. -/

namespace Sys2Proof.Machine

/-- Every register of an all-zero arena reads 0, within NREG and beyond it. -/
@[simp] theorem readReg_replicate_false (n i : Nat) : readReg (List.replicate n false) i = false := by
  by_cases h : i < n
  · simp [readReg, h]
  · exact readReg_of_length_le (by simpa using h)

/-- The values of R30 hold of every boot state. -/
theorem boot_resetValues (n : Nat) (l : List Word) :
    (∀ i, i < (State.boot n l).nreg → readReg (State.boot n l).x i = false) ∧
      (State.boot n l).gl = [] ∧ (State.boot n l).ci = 0 ∧ (State.boot n l).fr.valid = false ∧
      (State.boot n l).fr.code = 0 ∧ (State.boot n l).fr.ci = 0 ∧ (State.boot n l).fr.word = 0 := by
  have registers_zero : ∀ i, i < (State.boot n l).nreg → readReg (State.boot n l).x i = false :=
    fun i _ => readReg_replicate_false n i
  exact ⟨registers_zero, boot_gl n l, boot_ci n l, rfl, rfl, rfl, rfl⟩

/-- Settles O1: `State.reset` and `resetEvent s` are both boot states, the second with the NREG and the command list
of `s`. -/
theorem resetValues : Obligations.ResetValues := by
  unfold Obligations.ResetValues
  rintro t (rfl | ⟨s, rfl⟩)
  · exact boot_resetValues Config.referenceNReg []
  · rw [resetEvent_eq_boot]
    exact boot_resetValues s.nreg s.cmds

end Sys2Proof.Machine
end

section
/-! The bits of a block (R43): each value bit and each character of a block is one register of the arena, and its value
is that of its four nibbles in base 16. -/

namespace Sys2Proof.Machine

/-- Value bit v of a block is bit v mod 4 of the nibble at b + 4*(3 - floor(v/4)), the first nibble the most
significant. -/
theorem getLsbD_val16_eq_nib (x : Arena) (b : Nat) {v : Nat} (hv : v < 16) :
    (val16 x b).getLsbD v = (nib x (b + 4 * (3 - v / 4))).getLsbD (v % 4) := by
  have hq : v / 4 = 0 ∨ v / 4 = 1 ∨ v / 4 = 2 ∨ v / 4 = 3 := by omega
  have happ : (val16 x b).getLsbD v =
      if v < 4 then (nib x (b + 12)).getLsbD v
      else if v - 4 < 4 then (nib x (b + 8)).getLsbD (v - 4)
      else if v - 4 - 4 < 4 then (nib x (b + 4)).getLsbD (v - 4 - 4)
      else (nib x b).getLsbD (v - 4 - 4 - 4) := by
    rw [val16, BitVec.getLsbD_append, BitVec.getLsbD_append, BitVec.getLsbD_append]
  rw [happ]
  rcases hq with h | h | h | h
  · rw [if_pos (by omega), h, show v % 4 = v by omega]
  · rw [if_neg (by omega), if_pos (by omega), h, show v % 4 = v - 4 by omega]
  · rw [if_neg (by omega), if_neg (by omega), if_pos (by omega), h, show v % 4 = v - 4 - 4 by omega]
  · rw [if_neg (by omega), if_neg (by omega), if_neg (by omega), h, show v % 4 = v - 4 - 4 - 4 by omega]
    rfl

/-- `bitReg` is the register of value bit v (R43). -/
theorem getLsbD_val16 (x : Arena) (b : Nat) {v : Nat} (hv : v < 16) :
    (val16 x b).getLsbD v = readReg x (bitReg b v) := by
  rw [getLsbD_val16_eq_nib x b hv, getLsbD_nib _ _ _ (Nat.mod_lt v (by decide)), bitReg]

/-- The register of character j: counting characters from the left counts nibbles forward and their bits backward. -/
theorem charReg_eq (b : Nat) {j : Nat} (hj : j < 16) : charReg b j = b + 4 * (j / 4) + (3 - j % 4) := by
  have hnib : 3 - (15 - j) / 4 = j / 4 := by omega
  have hbit : (15 - j) % 4 = 3 - j % 4 := by omega
  rw [charReg, bitReg, hnib, hbit]

/-- A nibble appended on the right is the last digit in base 16. -/
theorem toNat_append_nibble {n : Nat} (u : BitVec n) (v : Nibble) : (u ++ v).toNat = u.toNat * 2 ^ 4 + v.toNat := by
  rw [BitVec.toNat_append, ← Nat.shiftLeft_add_eq_or_of_lt v.isLt, Nat.shiftLeft_eq]

/-- The value of a block, by its four nibbles (R43). -/
theorem toNat_val16 (x : Arena) (b : Nat) :
    (val16 x b).toNat = (nib x b).toNat * 2 ^ 12 + (nib x (b + 4)).toNat * 2 ^ 8 + (nib x (b + 8)).toNat * 2 ^ 4 +
      (nib x (b + 12)).toNat := by
  rw [val16, toNat_append_nibble, toNat_append_nibble, toNat_append_nibble]
  ring

/-- Settles O46: a value bit is read in its nibble, character j is value bit 15 - j, and the value is read off the
nibbles in base 16. -/
theorem blockBitOrder : Obligations.BlockBitOrder := by
  unfold Obligations.BlockBitOrder
  intro x b
  refine ⟨fun v hv => getLsbD_val16 x b hv, fun j hj => ?_, (toNat_val16 x b).symm⟩
  calc (val16 x b).getLsbD (15 - j)
      = readReg x (charReg b j) := getLsbD_val16 x b (by omega)
    _ = readReg x (b + 4 * (j / 4) + (3 - j % 4)) := by rw [charReg_eq b hj]

end Sys2Proof.Machine
end

section
/-! The decoder (R61, R65 to R67, R74): which bytes are opcodes, what each field of R65 is used by, what decoding
answers, and that a command and its one word determine each other. -/

namespace Sys2Proof.Machine

/-! ### The opcode map -/

theorem opcodeOf_byte (o : Opcode) : opcodeOf o.byte = some o := by
  cases o <;> rfl

theorem byte_of_opcodeOf {b : BitVec 8} {o : Opcode} (h : opcodeOf b = some o) : o.byte = b :=
  eq_of_beq (List.find?_some (p := fun o : Opcode => o.byte == b) h)

/-- The sixteen values of R65 and the ranges R66 lists share no value and leave none out. -/
theorem opcodeOf_eq_none_iff : ∀ b : BitVec 8, opcodeOf b = none ↔ reservedOpcode b.toNat = true := by
  decide

/-! The operand column of R65, field by field: the opcodes that leave a field unused. -/

theorem uses_b_eq_false (o : Opcode) : o.uses.b = false ↔ o.byte ∈ [0x01#8, 0x04#8, 0x62#8] := by
  cases o <;> decide

theorem uses_c_eq_false (o : Opcode) :
    o.uses.c = false ↔ o.byte ∉ [0x03#8, 0x11#8, 0x12#8, 0x30#8, 0x31#8] := by
  cases o <;> decide

theorem uses_opt_eq_false (o : Opcode) : o.uses.opt = false ↔ o.byte ∉ [0x40#8, 0x50#8, 0x60#8] := by
  cases o <;> decide

theorem uses_imm_eq_false (o : Opcode) : o.uses.imm = false ↔ o.byte ∉ [0x61#8, 0x62#8] := by
  cases o <;> decide

/-! ### Unused fields -/

theorem unusedZero_eq_true {o : Opcode} {w : Word} :
    unusedZero o w = true ↔ rsvField w = 0 ∧ (o.uses.b = false → bField w = 0) ∧
      (o.uses.c = false → cField w = 0) ∧ (o.uses.opt = false → optField w = 0) ∧
      (o.uses.imm = false → immField w = 0) := by
  have unused (u : Bool) {n : Nat} (v : BitVec n) : (u || v == 0) = true ↔ (u = false → v = 0) := by
    cases u <;> simp
  simp only [unusedZero, Bool.and_eq_true, unused, beq_iff_eq, and_assoc]

/-- A word fails R67 in RSV or in one of the four fields an opcode may leave unused. -/
theorem unusedZero_eq_false {o : Opcode} {w : Word} :
    unusedZero o w = false ↔ rsvField w ≠ 0 ∨ (o.uses.b = false ∧ bField w ≠ 0) ∨
      (o.uses.c = false ∧ cField w ≠ 0) ∨ (o.uses.opt = false ∧ optField w ≠ 0) ∨
      (o.uses.imm = false ∧ immField w ≠ 0) := by
  rw [← Bool.not_eq_true, unusedZero_eq_true]
  simp only [not_and_or, Classical.not_imp, ne_eq]

/-! ### What decoding answers -/

theorem decode_of_opcode {w : Word} {o : Opcode} (h : opcodeOf (opcField w) = some o) :
    decode w = if unusedZero o w then
        .ok (assembleFields o (aField w) (bField w) (cField w) (optField w) (immField w))
      else .error .illegalEncoding := by
  simp only [decode, h]

theorem decode_eq_illegalOpcode {w : Word} :
    decode w = .error .illegalOpcode ↔ opcodeOf (opcField w) = none := by
  cases ho : opcodeOf (opcField w) with
  | none => simp [decode, ho]
  | some o =>
    rw [decode_of_opcode ho]
    split <;> simp

theorem decode_eq_illegalEncoding {w : Word} {o : Opcode} (h : opcodeOf (opcField w) = some o) :
    decode w = .error .illegalEncoding ↔ unusedZero o w = false := by
  rw [decode_of_opcode h]
  cases unusedZero o w <;> simp

theorem decode_eq_ok {w : Word} {i : Instr} :
    decode w = .ok i ↔ ∃ o, opcodeOf (opcField w) = some o ∧ unusedZero o w = true ∧
      assembleFields o (aField w) (bField w) (cField w) (optField w) (immField w) = i := by
  cases ho : opcodeOf (opcField w) with
  | none => simp [decode, ho]
  | some o =>
    rw [decode_of_opcode ho]
    cases hu : unusedZero o w <;> simp [hu]

/-! ### Decoding the word of a command -/

theorem fieldsEncoded (i : Instr) : Laws.FieldsEncoded.Statement i := by
  cases i with
  | flip t => exact Laws.FieldsEncoded.flip t
  | cx c t => exact Laws.FieldsEncoded.cx c t
  | ccx c1 c2 t => exact Laws.FieldsEncoded.ccx c1 c2 t
  | reset t => exact Laws.FieldsEncoded.reset t
  | gfSq a o => exact Laws.FieldsEncoded.gfSq a o
  | gfMul a b c => exact Laws.FieldsEncoded.gfMul a b c
  | gfInv a w o => exact Laws.FieldsEncoded.gfInv a w o
  | gfMul4 a o => exact Laws.FieldsEncoded.gfMul4 a o
  | affine c b => exact Laws.FieldsEncoded.affine c b
  | sbox a w o => exact Laws.FieldsEncoded.sbox a w o
  | subnib s w o => exact Laws.FieldsEncoded.subnib s w o
  | srmc s w c => exact Laws.FieldsEncoded.srmc s w c
  | keyexp k w r => exact Laws.FieldsEncoded.keyexp k w r
  | addrk s k l => exact Laws.FieldsEncoded.addrk s k l
  | addrkConst s k imm => exact Laws.FieldsEncoded.addrkConst s k imm
  | loadc b imm => exact Laws.FieldsEncoded.loadc b imm

theorem decode_encode (i : Instr) : decode (encode i) = .ok i := by
  obtain ⟨hopc, hunused, hfields⟩ := fieldsEncoded i
  exact decode_eq_ok.mpr ⟨i.opcode, by rw [hopc, opcodeOf_byte], hunused, hfields⟩

/-! ### The word of a decoded command -/

/-- A word whose field RSV is zero is packed from its other fields (R61). -/
theorem packWord_fields {w : Word} (hrsv : rsvField w = 0) :
    packWord (opcField w) (aField w) (bField w) (cField w) (optField w) (immField w) = w := by
  apply BitVec.eq_of_getLsbD_eq
  intro k hk
  have rsv_bit (h1 : ¬k < 17) (h2 : k < 32) : w.getLsbD k = false := by
    have h : (rsvField w).getLsbD (k - 17) = false := by rw [hrsv]; simp
    rw [rsvField, BitVec.getLsbD_extractLsb', show 17 + (k - 17) = k by omega] at h
    simpa [show k - 17 < 15 by omega] using h
  have field_bit {p n : Nat} (h1 : p ≤ k) (h2 : k < p + n) : (w.extractLsb' p n).getLsbD (k - p) = w.getLsbD k := by
    rw [BitVec.getLsbD_extractLsb', show p + (k - p) = k by omega]
    simp [show k - p < n by omega]
  rw [getLsbD_packWord]
  split_ifs with h16 h17 h32 h40 h48 h56
  · exact field_bit (p := 0) (by omega) (by omega)
  · exact field_bit (by omega) (by omega)
  · exact (rsv_bit h17 h32).symm
  · exact field_bit (by omega) (by omega)
  · exact field_bit (by omega) (by omega)
  · exact field_bit (by omega) (by omega)
  · exact field_bit (by omega) (by omega)

theorem cleanupBit_cleanupOf : ∀ opt : BitVec 1, cleanupBit (cleanupOf opt) = opt := by decide
theorem roundBit_roundOf : ∀ opt : BitVec 1, roundBit (roundOf opt) = opt := by decide
theorem layoutBit_layoutOf : ∀ opt : BitVec 1, layoutBit (layoutOf opt) = opt := by decide

/-- The word of a command made from fields: the opcode byte, and the fields with zero wherever they are not used. -/
theorem encode_assembleFields (o : Opcode) (a b c : RegIx) (opt : BitVec 1) (imm : Block) :
    encode (assembleFields o a b c opt imm) =
      packWord o.byte a (if o.uses.b then b else 0) (if o.uses.c then c else 0) (if o.uses.opt then opt else 0)
        (if o.uses.imm then imm else 0) := by
  cases o with
  | srmc => simp [assembleFields, encode, cleanupBit_cleanupOf, Opcode.byte, Opcode.uses]
  | keyexp => simp [assembleFields, encode, roundBit_roundOf, Opcode.byte, Opcode.uses]
  | addrk => simp [assembleFields, encode, layoutBit_layoutOf, Opcode.byte, Opcode.uses]
  | _ => rfl

/-- A word that decodes is the word of the command it decodes to: what the command does not keep of it is zero. -/
theorem encode_of_decode {w : Word} {i : Instr} (h : decode w = .ok i) : encode i = w := by
  obtain ⟨o, hopc, hunused, rfl⟩ := decode_eq_ok.mp h
  obtain ⟨hrsv, hb, hc, hopt, himm⟩ := unusedZero_eq_true.mp hunused
  have used {u : Bool} {n : Nat} {v : BitVec n} (hv : u = false → v = 0) : (if u then v else 0) = v := by
    cases u with
    | true => rfl
    | false => exact (hv rfl).symm
  rw [encode_assembleFields, used hb, used hc, used hopt, used himm, byte_of_opcodeOf hopc, packWord_fields hrsv]

end Sys2Proof.Machine
end

section
/-! Steps on a fetched word (R32), and the statements on the encoding: reserved opcodes (R66), unused fields (R67) and
the worked words (R78). -/

namespace Sys2Proof.Machine

theorem step_of_decode_error {s : State} {w : Word} {e : DecodeError} (hready : s.fr.valid = false)
    (hfetch : fetch s = some w) (hdecode : decode w = .error e) :
    step s = .next (takeFault (decodeFault e) w s) := by
  simp [step, hready, hfetch, hdecode]

theorem step_of_decode_ok {s : State} {w : Word} {i : Instr} (hready : s.fr.valid = false)
    (hfetch : fetch s = some w) (hdecode : decode w = .ok i) : step s = exec i s := by
  simp [step, hready, hfetch, hdecode]

theorem decode_eq_illegalOpcode_iff_reserved (w : Word) :
    decode w = .error .illegalOpcode ↔ reservedOpcode (opcField w).toNat = true :=
  decode_eq_illegalOpcode.trans (opcodeOf_eq_none_iff _)

/-- Settles O10: the values R66 lists are those the opcode map names no opcode for, and decoding checks the opcode
first. -/
theorem reservedOpcodesRefused : Obligations.ReservedOpcodesRefused := by
  unfold Obligations.ReservedOpcodesRefused
  refine ⟨by decide +kernel, decode_eq_illegalOpcode_iff_reserved, fun s w hready hfetch hreserved => ?_⟩
  have hdecode : decode w = .error .illegalOpcode := (decode_eq_illegalOpcode_iff_reserved w).mpr hreserved
  rw [step_of_decode_error hready hfetch hdecode, takeFault_eq_afterFault]
  rfl

/-- Settles O11: the second check of decoding is the operand column of R65 read field by field, and the word of a
command is determined by it. -/
theorem unusedFieldsRefused : Obligations.UnusedFieldsRefused := by
  unfold Obligations.UnusedFieldsRefused
  constructor
  · intro w hnot
    have hsome : opcodeOf (opcField w) ≠ none := fun h => by
      simp [(opcodeOf_eq_none_iff _).mp h] at hnot
    obtain ⟨o, ho⟩ := Option.ne_none_iff_exists'.mp hsome
    rw [decode_eq_illegalEncoding ho, unusedZero_eq_false, uses_b_eq_false, uses_c_eq_false, uses_opt_eq_false,
      uses_imm_eq_false, byte_of_opcodeOf ho]
  · intro v w i hv hw
    rw [← encode_of_decode hv, encode_of_decode hw]

theorem encode_workedEncodings : ∀ p ∈ workedEncodings, encode p.2.2 = p.2.1 := by decide

theorem assembleLine_workedEncodings :
    ∀ p ∈ workedEncodings, assembleLine p.1 = .ok (some (.command p.2.2)) := by decide

/-- Settles O14: each line assembles to its command and the command encodes to its word, so the word decodes to the
command. -/
theorem workedEncodings : Obligations.WorkedEncodings := by
  unfold Obligations.WorkedEncodings
  intro p hp
  have hword : encode p.2.2 = p.2.1 := encode_workedEncodings p hp
  exact ⟨by rw [← hword, decode_encode], hword, assembleLine_workedEncodings p hp⟩

end Sys2Proof.Machine
end

section
/-! Where the primitives of an expansion read and write: every register a primitive of `expand i` names lies in an
operand region of `i` (R72, R245). -/

namespace Sys2Proof.Machine

/-- Every register of reg(b, n) has the property `p` (R41). -/
def RegsIn (p : Nat → Prop) (b n : Nat) : Prop := ∀ j, b ≤ j → j < b + n → p j

/-- Every register a primitive of `E` writes or reads has the property `p`. -/
def OperandsIn (p : Nat → Prop) (E : List Gate) : Prop := ∀ g ∈ E, ∀ j ∈ gateTarget g :: gateControls g, p j

theorem RegsIn.sub {p : Nat → Prop} {b n c m : Nat} (h : RegsIn p b n) (hlo : b ≤ c) (hhi : c + m ≤ b + n) :
    RegsIn p c m :=
  fun j h1 h2 => h j (by omega) (by omega)

theorem RegsIn.reg {p : Nat → Prop} {b n k : Nat} (h : RegsIn p b n) (hk : k < n) : p (b + k) :=
  h (b + k) (by omega) (by omega)

section
variable {p : Nat → Prop} {E F : List Gate} {a b c w o s k t : Nat}

/-! ### Lists of primitives -/

@[simp] theorem operandsIn_nil : OperandsIn p [] := fun _ h => absurd h List.not_mem_nil

theorem OperandsIn.append (hE : OperandsIn p E) (hF : OperandsIn p F) : OperandsIn p (E ++ F) :=
  List.forall_mem_append.mpr ⟨hE, hF⟩

theorem operandsIn_flatten {bs : List (List Gate)} (h : ∀ B ∈ bs, OperandsIn p B) : OperandsIn p bs.flatten := by
  intro g hg
  obtain ⟨B, hB, hgB⟩ := List.mem_flatten.mp hg
  exact h B hB g hgB

theorem operandsIn_flatMap {α : Type} {l : List α} {f : α → List Gate} (h : ∀ v ∈ l, OperandsIn p (f v)) :
    OperandsIn p (l.flatMap f) := by
  intro g hg
  obtain ⟨v, hv, hgv⟩ := List.mem_flatMap.mp hg
  exact h v hv g hgv

theorem operandsIn_flip (ht : p t) : OperandsIn p [.flip t] := by
  simp [OperandsIn, gateTarget, gateControls, ht]

theorem operandsIn_cx (hc : p c) (ht : p t) : OperandsIn p [.cx c t] := by
  simp [OperandsIn, gateTarget, gateControls, hc, ht]

theorem operandsIn_ccx (ha : p a) (hb : p b) (ht : p t) : OperandsIn p [.ccx a b t] := by
  simp [OperandsIn, gateTarget, gateControls, ha, hb, ht]

theorem operandsIn_reset (ht : p t) : OperandsIn p [.reset t] := by
  simp [OperandsIn, gateTarget, gateControls, ht]

/-! ### The named sub-sequences -/

theorem operandsIn_cxPairs {l : List (Nat × Nat)} (hl : ∀ q ∈ l, q.1 < 4 ∧ q.2 < 4) (ha : RegsIn p a 4)
    (ho : RegsIn p o 4) : OperandsIn p (cxPairs a o l) := by
  rw [cxPairs, List.map_eq_flatMap]
  exact operandsIn_flatMap fun q hq => operandsIn_cx (ha.reg (hl q hq).1) (ho.reg (hl q hq).2)

theorem operandsIn_cxNibble (ha : RegsIn p a 4) (ho : RegsIn p o 4) : OperandsIn p (cxNibble a o) :=
  operandsIn_cxPairs (by decide) ha ho

theorem operandsIn_sqSeq (ha : RegsIn p a 4) (ho : RegsIn p o 4) : OperandsIn p (sqSeq a o) :=
  operandsIn_cxPairs (by decide) ha ho

theorem operandsIn_mul4Seq (ha : RegsIn p a 4) (ho : RegsIn p o 4) : OperandsIn p (mul4Seq a o) :=
  operandsIn_cxPairs (by decide) ha ho

theorem operandsIn_mul2Seq (ha : RegsIn p a 4) (ho : RegsIn p o 4) : OperandsIn p (mul2Seq a o) :=
  operandsIn_cxPairs (by decide) ha ho

theorem operandsIn_mul8Seq (ha : RegsIn p a 4) (ho : RegsIn p o 4) : OperandsIn p (mul8Seq a o) :=
  operandsIn_cxPairs (by decide) ha ho

theorem operandsIn_mulSeq (ha : RegsIn p a 4) (hb : RegsIn p b 4) (hc : RegsIn p c 4) :
    OperandsIn p (mulSeq a b c) := by
  have terms_lt : ∀ q ∈ mulTerms, q.1 < 4 ∧ q.2.1 < 4 ∧ q.2.2 < 4 := by decide
  rw [mulSeq, List.map_eq_flatMap]
  refine operandsIn_flatMap fun q hq => ?_
  obtain ⟨h1, h2, h3⟩ := terms_lt q hq
  exact operandsIn_ccx (ha.reg h1) (hb.reg h2) (hc.reg h3)

theorem operandsIn_affSeq (ha : RegsIn p a 4) (ho : RegsIn p o 4) : OperandsIn p (affSeq a o) := by
  have pairs := operandsIn_cxPairs (l := [(0, 0), (1, 0), (2, 0), (1, 1), (2, 1), (3, 1), (0, 2), (2, 2), (3, 2),
    (0, 3), (1, 3), (3, 3)]) (by decide) ha ho
  have flips : OperandsIn p ([.flip o] ++ [.flip (o + 3)]) :=
    (operandsIn_flip (ho.reg (k := 0) (by decide))).append (operandsIn_flip (ho.reg (by decide)))
  exact pairs.append flips

theorem operandsIn_resetNibble (ht : RegsIn p t 4) : OperandsIn p (resetNibble t) := by
  have resets : OperandsIn p ([0, 1, 2, 3].flatMap fun k => [.reset (t + k)]) :=
    operandsIn_flatMap fun k hk => operandsIn_reset (ht.reg (by revert hk; revert k; decide))
  exact resets

/-! ### The S-box chain and its uncompute -/

theorem operandsIn_invUp (ha : RegsIn p a 4) (hw : RegsIn p w 16) : ∀ B ∈ invUp a w, OperandsIn p B := by
  have hw0 : RegsIn p w 4 := hw.sub (by omega) (by omega)
  have hw1 : RegsIn p (w + 4) 4 := hw.sub (by omega) (by omega)
  have hw2 : RegsIn p (w + 8) 4 := hw.sub (by omega) (by omega)
  have hw3 : RegsIn p (w + 12) 4 := hw.sub (by omega) (by omega)
  simp only [invUp, List.forall_mem_cons]
  exact ⟨operandsIn_sqSeq ha hw0, operandsIn_sqSeq hw0 hw1, operandsIn_sqSeq hw1 hw2, operandsIn_mulSeq hw2 hw1 hw3,
    fun _ h => absurd h List.not_mem_nil⟩

theorem operandsIn_sboxUp (ha : RegsIn p a 4) (hw : RegsIn p w 20) : ∀ B ∈ sboxUp a w, OperandsIn p B := by
  have last : OperandsIn p (mulSeq (w + 12) w (w + 16)) :=
    operandsIn_mulSeq (hw.sub (by omega) (by omega)) (hw.sub (by omega) (by omega)) (hw.sub (by omega) (by omega))
  exact List.forall_mem_append.mpr
    ⟨operandsIn_invUp ha (hw.sub (by omega) (by omega)), List.forall_mem_singleton.mpr last⟩

theorem operandsIn_uncompute {bs : List (List Gate)} (h : ∀ B ∈ bs, OperandsIn p B) : OperandsIn p (uncompute bs) :=
  operandsIn_flatten fun B hB => h B (List.mem_reverse.mp hB)

theorem operandsIn_invSeq (ha : RegsIn p a 4) (hw : RegsIn p w 16) (ho : RegsIn p o 4) :
    OperandsIn p (invSeq a w o) := by
  have up := operandsIn_invUp ha hw
  have mid := operandsIn_mulSeq (hw.sub (c := w + 12) (by omega) (by omega)) (hw.sub (c := w) (by omega) (by omega)) ho
  exact ((operandsIn_flatten up).append mid).append (operandsIn_uncompute up)

theorem operandsIn_sboxSeq (ha : RegsIn p a 4) (hw : RegsIn p w 20) (ho : RegsIn p o 4) :
    OperandsIn p (sboxSeq a w o) := by
  have up := operandsIn_sboxUp ha hw
  have mid := operandsIn_affSeq (hw.sub (c := w + 16) (by omega) (by omega)) ho
  exact ((operandsIn_flatten up).append mid).append (operandsIn_uncompute up)

/-! ### The expansions that are more than one sub-sequence -/

theorem operandsIn_subnibOne (hs : RegsIn p s 4) (hw : RegsIn p w 20) (ho : RegsIn p o 4) :
    OperandsIn p (subnibOne s w o) :=
  (((operandsIn_sboxSeq hs hw ho).append (operandsIn_resetNibble hs)).append (operandsIn_cxNibble ho hs)).append
    (operandsIn_cxNibble hs ho)

theorem operandsIn_srmcPair {top bot t1 t2 : Nat} (htop : RegsIn p top 4) (hbot : RegsIn p bot 4)
    (ht1 : RegsIn p t1 4) (ht2 : RegsIn p t2 4) (cleanup : Cleanup) :
    OperandsIn p (srmcPair top bot t1 t2 cleanup) := by
  have mix : OperandsIn p (srmcMix top bot t1 t2) :=
    (((operandsIn_mul4Seq htop ht1).append (operandsIn_mul4Seq hbot ht2)).append
      (operandsIn_cxNibble ht2 htop)).append (operandsIn_cxNibble ht1 hbot)
  cases cleanup with
  | noclean => exact mix.append operandsIn_nil
  | clean =>
    exact mix.append ((((operandsIn_mul2Seq htop ht1).append (operandsIn_mul8Seq hbot ht1)).append
      (operandsIn_mul2Seq hbot ht2)).append (operandsIn_mul8Seq htop ht2))

theorem operandsIn_rconSeq (hk : RegsIn p k 4) (r : Round) : OperandsIn p (rconSeq k r) := by
  have flip_at {m : Nat} (hm : m < 4) : OperandsIn p [.flip (k + m)] := operandsIn_flip (hk.reg hm)
  cases r with
  | one => exact flip_at (by decide)
  | two => exact (flip_at (m := 1) (by decide)).append (flip_at (m := 0) (by decide))

end

theorem physicalNibble_lt {n : Nat} (hn : n < 4) (l : Layout) : physicalNibble l n < 4 := by
  cases l with
  | ident => exact hn
  | swap13 => simp only [physicalNibble]; split_ifs <;> omega

theorem setChars_lt {imm : Block} {j : Nat} (hj : j ∈ setChars imm) : j < 16 :=
  List.mem_range.mp (List.mem_filter.mp hj).1

/-- The register of a character lies in its block. -/
theorem RegsIn.charReg {p : Nat → Prop} {b j : Nat} (h : RegsIn p b 16) (hj : j < 16) : p (charReg b j) := by
  rw [charReg_eq b hj]
  exact h _ (by omega) (by omega)

/-! ### Every expansion -/

section
variable {p : Nat → Prop} {a b c : RegIx} {l m n : Nat}

theorem regsIn_of_one (h : ∀ r ∈ [region a l], RegsIn p r.base r.size) : RegsIn p a.toNat l :=
  h (region a l) List.mem_cons_self

theorem regsIn_of_two (h : ∀ r ∈ [region a l, region b m], RegsIn p r.base r.size) :
    RegsIn p a.toNat l ∧ RegsIn p b.toNat m :=
  ⟨(List.forall_mem_cons.mp h).1, regsIn_of_one (List.forall_mem_cons.mp h).2⟩

theorem regsIn_of_three (h : ∀ r ∈ [region a l, region b m, region c n], RegsIn p r.base r.size) :
    RegsIn p a.toNat l ∧ RegsIn p b.toNat m ∧ RegsIn p c.toNat n :=
  ⟨(List.forall_mem_cons.mp h).1, regsIn_of_two (List.forall_mem_cons.mp h).2⟩

end

/-- Every register a primitive of a command's expansion names has every property that the registers of the command's
operand regions have. -/
theorem operandsIn_expand {p : Nat → Prop} {i : Instr} (h : ∀ r ∈ operandRegions i, RegsIn p r.base r.size) :
    OperandsIn p (expand i) := by
  cases i with
  | flip t =>
    have ht := regsIn_of_one h
    exact operandsIn_flip (ht.reg (k := 0) (by decide))
  | cx c t =>
    obtain ⟨hc, ht⟩ := regsIn_of_two h
    exact operandsIn_cx (hc.reg (k := 0) (by decide)) (ht.reg (k := 0) (by decide))
  | ccx c1 c2 t =>
    obtain ⟨h1, h2, ht⟩ := regsIn_of_three h
    exact operandsIn_ccx (h1.reg (k := 0) (by decide)) (h2.reg (k := 0) (by decide)) (ht.reg (k := 0) (by decide))
  | reset t =>
    have ht := regsIn_of_one h
    exact operandsIn_reset (ht.reg (k := 0) (by decide))
  | gfSq a o =>
    obtain ⟨ha, ho⟩ := regsIn_of_two h
    exact operandsIn_sqSeq ha ho
  | gfMul a b c =>
    obtain ⟨ha, hb, hc⟩ := regsIn_of_three h
    exact operandsIn_mulSeq ha hb hc
  | gfInv a w o =>
    obtain ⟨ha, hw, ho⟩ := regsIn_of_three h
    exact operandsIn_invSeq ha hw ho
  | gfMul4 a o =>
    obtain ⟨ha, ho⟩ := regsIn_of_two h
    exact operandsIn_mul4Seq ha ho
  | affine c b =>
    obtain ⟨hc, hb⟩ := regsIn_of_two h
    exact operandsIn_affSeq hc hb
  | sbox a w o =>
    obtain ⟨ha, hw, ho⟩ := regsIn_of_three h
    exact operandsIn_sboxSeq ha hw ho
  | subnib s w o =>
    obtain ⟨hs, hw, ho⟩ := regsIn_of_three h
    refine operandsIn_flatMap fun n hn => ?_
    have hn : n < 4 := List.mem_range.mp hn
    exact operandsIn_subnibOne (hs.sub (by omega) (by omega)) hw (ho.sub (by omega) (by omega))
  | srmc s w cleanup =>
    obtain ⟨hs, hw⟩ := regsIn_of_two h
    have outer := operandsIn_srmcPair (hs.sub (c := s.toNat) (by omega) (by omega))
      (hs.sub (c := s.toNat + 12) (by omega) (by omega)) (hw.sub (c := w.toNat) (by omega) (by omega))
      (hw.sub (c := w.toNat + 4) (by omega) (by omega)) cleanup
    have inner := operandsIn_srmcPair (hs.sub (c := s.toNat + 4) (by omega) (by omega))
      (hs.sub (c := s.toNat + 8) (by omega) (by omega)) (hw.sub (c := w.toNat + 8) (by omega) (by omega))
      (hw.sub (c := w.toNat + 12) (by omega) (by omega)) cleanup
    exact outer.append inner
  | keyexp k w r =>
    obtain ⟨hk, hw⟩ := regsIn_of_two h
    have hk0 : RegsIn p k.toNat 4 := hk.sub (by omega) (by omega)
    have hk1 : RegsIn p (k.toNat + 4) 4 := hk.sub (by omega) (by omega)
    have hk2 : RegsIn p (k.toNat + 8) 4 := hk.sub (by omega) (by omega)
    have hk3 : RegsIn p (k.toNat + 12) 4 := hk.sub (by omega) (by omega)
    exact ((((operandsIn_sboxSeq hk3 hw hk0).append (operandsIn_sboxSeq hk2 hw hk1)).append
      (operandsIn_rconSeq hk0 r)).append (operandsIn_cxNibble hk0 hk2)).append (operandsIn_cxNibble hk1 hk3)
  | addrk s k layout =>
    obtain ⟨hs, hk⟩ := regsIn_of_two h
    refine operandsIn_flatMap fun n hn => ?_
    have hn : n < 4 := List.mem_range.mp hn
    have hphys := physicalNibble_lt hn layout
    exact operandsIn_cxNibble (hk.sub (by omega) (by omega)) (hs.sub (by omega) (by omega))
  | addrkConst s k imm =>
    obtain ⟨hs, hk⟩ := regsIn_of_two h
    refine operandsIn_flatMap fun j hj => ?_
    have hkey := hk.charReg (setChars_lt hj)
    exact (operandsIn_flip hkey).append (operandsIn_cx hkey (hs.charReg (setChars_lt hj)))
  | loadc b imm =>
    have hb := regsIn_of_one h
    rw [expand, expandLoadc, List.map_eq_flatMap]
    exact operandsIn_flatMap fun j hj => operandsIn_flip (hb.charReg (setChars_lt hj))

/-- The operand regions of a command that passes its checks lie below NREG, so its primitives stay below NREG
(R245). -/
theorem operandsIn_expand_of_wellFormed {nreg : Nat} {i : Instr} (h : i.wellFormed nreg = true) :
    OperandsIn (· < nreg) (expand i) := by
  obtain ⟨hrange, -⟩ := checkOperands_eq_none.mp ((checkOperands_wellFormed nreg i).mpr h)
  refine operandsIn_expand fun r hr j _ hj => ?_
  have hfits : r.base + r.size ≤ nreg := of_decide_eq_true (hrange r hr)
  exact lt_of_lt_of_le hj hfits

end Sys2Proof.Machine
end

section
/-! The gate log as a command list (R71, R106): a primitive and its log word determine each other, a step on a log word
emits its primitive, and so a run of the log from reset emits the log again. -/

namespace Sys2Proof.Machine

/-! ### Primitives and their words -/

/-- The registers a primitive names fit the 8-bit operand fields (R62). -/
def fitsFields (g : Gate) : Prop := ∀ j ∈ gateTarget g :: gateControls g, j < 2 ^ 8

/-- Nothing of such a register index is cut in an operand field. -/
theorem toNat_ofNat_of_fitsFields {g : Gate} (h : fitsFields g) :
    ∀ j ∈ gateTarget g :: gateControls g, (BitVec.ofNat 8 j).toNat = j := fun j hj => by
  rw [BitVec.toNat_ofNat, Nat.mod_eq_of_lt (h j hj)]

theorem decode_gateWord (g : Gate) : decode (gateWord g) = .ok (gateCommand g) := decode_encode (gateCommand g)

theorem gateOfWord_gateWord {g : Gate} (h : fitsFields g) : gateOfWord (gateWord g) = some g := by
  have uncut := toNat_ofNat_of_fitsFields h
  unfold gateOfWord
  rw [decode_gateWord]
  cases g <;> simpa [gateCommand, gateTarget, gateControls, and_assoc, and_comm, and_left_comm] using uncut

/-- A word that names a primitive decodes to it, and its operand fields are the primitive's registers. -/
theorem gateOfWord_eq_some {w : Word} {g : Gate} (h : gateOfWord w = some g) :
    decode w = .ok (gateCommand g) ∧ fitsFields g := by
  have field_lt (t : RegIx) : t.toNat < 2 ^ 8 := t.isLt
  unfold gateOfWord at h
  split at h <;> cases h
  all_goals
    refine ⟨by simpa [gateCommand], ?_⟩
    simp only [fitsFields, gateTarget, gateControls, List.forall_mem_cons, field_lt, true_and]
    exact fun _ hj => absurd hj List.not_mem_nil

theorem gateWord_of_gateOfWord {w : Word} {g : Gate} (h : gateOfWord w = some g) : gateWord g = w :=
  encode_of_decode (gateOfWord_eq_some h).1

/-! ### Primitives as commands -/

/-- A primitive executed as a command is its own one-element expansion (R100). -/
theorem expand_gateCommand {g : Gate} (h : fitsFields g) : expand (gateCommand g) = [g] := by
  have uncut := toNat_ofNat_of_fitsFields h
  cases g <;>
    simpa [gateCommand, gateTarget, gateControls, expand, expandFlip, expandCx, expandCcx, expandReset, and_assoc,
      and_comm, and_left_comm] using uncut

/-- A valid primitive passes its checks as a command: its operands are single registers, so distinct ones do not
overlap (R245). -/
theorem wellFormed_gateCommand {nreg : Nat} {g : Gate} (hfits : fitsFields g) (hvalid : gateValid nreg g = true) :
    (gateCommand g).wellFormed nreg = true := by
  have uncut := toNat_ofNat_of_fitsFields hfits
  cases g
  all_goals
    simp [gateCommand, gateTarget, gateControls, gateValid, Instr.wellFormed, Instr.inRange, Instr.disjoint, fits,
      apart, apart3] at uncut hvalid ⊢
    omega

/-! ### Running log words -/

/-- A word of a log that is legal on `nreg` registers: a valid primitive (R71, R245). -/
def logWord (nreg : Nat) (w : Word) : Prop := ∃ g, gateOfWord w = some g ∧ gateValid nreg g = true

theorem logLegal_eq_true {s : State} : logLegal s = true ↔ ∀ w ∈ s.gl, logWord s.nreg w := by
  simp only [logLegal, List.all_eq_true, logWord]
  refine forall₂_congr fun w _ => ?_
  cases gateOfWord w <;> simp

/-- `s` after running the log words `l`: they are replayed on the arena and appended to the log. -/
def afterLog (l : List Word) (s : State) : State :=
  { s with x := replayLog l s.x, gl := s.gl ++ l, ci := s.ci + l.length }

theorem afterLog_nil (s : State) : afterLog [] s = s := by simp [afterLog]

theorem afterLog_cons (w : Word) (l : List Word) (s : State) : afterLog (w :: l) s = afterLog l (afterLog [w] s) := by
  have hreplay : replayLog (w :: l) s.x = replayLog l (replayLog [w] s.x) := replayLog_append [w] l s.x
  simp [afterLog, hreplay, Nat.add_assoc, Nat.add_comm 1]

theorem nreg_afterLog_singleton (w : Word) (s : State) : (afterLog [w] s).nreg = s.nreg := by
  cases h : gateOfWord w <;> simp [afterLog, State.nreg, replayLog, h]

/-- The step on a log word emits its primitive and appends the word itself. -/
theorem step_of_logWord {s : State} {w : Word} (hready : s.fr.valid = false) (hfetch : fetch s = some w)
    (hw : logWord s.nreg w) :
    step s = .next (afterLog [w] s) := by
  obtain ⟨g, hg, hvalid⟩ := hw
  obtain ⟨hdecode, hfits⟩ := gateOfWord_eq_some hg
  have hreplay : replayLog [w] s.x = applyGate g s.x := by simp [replayLog, hg]
  have hlog : (expand (gateCommand g)).map gateWord = [w] := by
    rw [expand_gateCommand hfits, List.map_singleton, gateWord_of_gateOfWord hg]
  rw [step_of_decode_ok hready hfetch hdecode, exec_of_wellFormed (wellFormed_gateCommand hfits hvalid), afterCommand,
    hlog, expand_gateCommand hfits, afterLog, hreplay]
  rfl

theorem run_succ_of_step {s t : State} {n : Nat} (h : step s = .next t) :
    Host.Core.run core (n + 1) s = Host.Core.run core n t := by
  have hcore : core.step s = .next t := h
  simp only [Host.Core.run, hcore]

/-- A run over log words standing at the command index replays them on the arena and appends them to the log. -/
theorem run_logWords {l : List Word} {s : State} (hready : s.fr.valid = false) (hcmds : s.cmds.drop s.ci = l)
    (hl : ∀ w ∈ l, logWord s.nreg w) : Host.Core.run core l.length s = .next (afterLog l s) := by
  induction l generalizing s with
  | nil => rw [afterLog_nil]; rfl
  | cons w l ih =>
    obtain ⟨hw, hl⟩ := List.forall_mem_cons.mp hl
    have hfetch : fetch s = some w := by rw [fetch, ← List.head?_drop, hcmds, List.head?_cons]
    have hrest : (afterLog [w] s).cmds.drop (afterLog [w] s).ci = l :=
      calc s.cmds.drop (s.ci + 1) = (s.cmds.drop s.ci).tail := List.tail_drop.symm
        _ = l := by rw [hcmds, List.tail_cons]
    rw [← nreg_afterLog_singleton w s] at hl
    rw [List.length_cons, run_succ_of_step (step_of_logWord hready hfetch hw),
      ih (s := afterLog [w] s) hready hrest hl, ← afterLog_cons]

/-! ### The statement -/

/-- The expansion of a command that completes is recorded word by word, and each word names its primitive (R71). -/
theorem gateOfWord_of_expand {nreg : Nat} {i : Instr} (hi : i.wellFormed nreg = true) (hn : nreg ≤ Config.maxNReg)
    {g : Gate} (hg : g ∈ expand i) : gateOfWord (gateWord g) = some g :=
  gateOfWord_gateWord fun j hj => lt_of_lt_of_le (operandsIn_expand_of_wellFormed hi g hg j hj) hn

/-- Settles O20: registers of an expansion lie below NREG and so fit the fields of the log word; and running the log of
a sound state from reset replays it, which by the invariant gives the arena of that state. -/
theorem logRerunsToSameArena : Obligations.LogRerunsToSameArena := by
  unfold Obligations.LogRerunsToSameArena
  constructor
  · intro i s hi hn
    exact ⟨_, exec_of_wellFormed hi, afterCommand_gl _ _ _,
      fun g hg => ⟨decode_gateWord g, gateOfWord_of_expand hi hn hg⟩⟩
  · rintro s ⟨-, -, -, hlog, hreplays⟩
    have hwords := logLegal_eq_true.mp hlog
    have hrun := run_logWords (s := State.boot s.nreg s.gl) rfl rfl (by simpa using hwords)
    refine ⟨fun w hw => ?_, _, hrun, of_decide_eq_true hreplays, rfl, ?_, rfl⟩
    · obtain ⟨g, hg, hvalid⟩ := hwords w hw
      exact ⟨g, (gateOfWord_eq_some hg).1, hvalid⟩
    · exact Nat.zero_add _

end Sys2Proof.Machine
end

section
/-! What a command and a run can do, said once for every command: the three answers of `exec` (R75, R76, R243), and what
every step keeps a run keeps. -/

namespace Sys2Proof.Machine

/-! ### The faults of a command -/

/-- A command with an operand out of range takes OPERAND_RANGE (R75). -/
theorem exec_of_not_inRange {i : Instr} {s : State} (h : i.inRange s.nreg = false) :
    exec i s = .next (afterFault 0x03 (encode i) s) := by
  rw [exec_eq_runCommand, runCommand, (checkOperands_not_inRange _ _).mpr h]
  rfl

/-- The operand checks raise no fault but OPERAND_RANGE and OPERAND_OVERLAP. -/
theorem checkOperands_eq_some {nreg : Nat} {rs : List Region} {code : FaultCode}
    (h : checkOperands nreg rs = some code) : code = .operandRange ∨ code = .operandOverlap := by
  unfold checkOperands at h
  split at h
  · exact .inl (Option.some.inj h).symm
  · split at h
    · cases h
    · exact .inr (Option.some.inj h).symm

/-- A command with its operands in range takes OPERAND_OVERLAP where they overlap (R76): the checks fail, and not with
OPERAND_RANGE. -/
theorem exec_of_overlap {i : Instr} {s : State} (hrange : i.inRange s.nreg = true) (hoverlap : i.disjoint = false) :
    exec i s = .next (afterFault 0x04 (encode i) s) := by
  have notWellFormed : i.wellFormed s.nreg = false := by simp [Instr.wellFormed, hoverlap]
  cases hcheck : checkOperands s.nreg (operandRegions i) with
  | none => simp [(checkOperands_wellFormed _ _).mp hcheck] at notWellFormed
  | some code =>
    rcases checkOperands_eq_some hcheck with rfl | rfl
    · simp [(checkOperands_not_inRange _ _).mp hcheck] at hrange
    · rw [exec_eq_runCommand, runCommand, hcheck]
      rfl

/-- Everything a command can do: take a fault, or complete. -/
theorem exec_cases {i : Instr} {s t : State} (h : exec i s = .next t) :
    (∃ code, t = takeFault code (encode i) s) ∨
      (i.wellFormed s.nreg = true ∧ t = afterCommand i (applyGates (expand i) s.x) s) := by
  rw [exec_eq_runCommand] at h
  rcases runCommand_cases h with ⟨code, -, rfl⟩ | ⟨hcheck, rfl⟩
  · exact .inl ⟨code, rfl⟩
  · exact .inr ⟨(checkOperands_wellFormed _ _).mp hcheck, rfl⟩

/-! ### What every step keeps -/

/-- What holds at the start of a run and is kept by every step holds of every state the run reaches. -/
theorem run_keeps {P : State → Prop} (hstep : ∀ s t, P s → step s = .next t → P t) {n : Nat} {s t : State} (hs : P s)
    (h : Host.Core.run core n s = .next t) : P t := by
  induction n generalizing s with
  | zero =>
    cases h
    exact hs
  | succ n ih =>
    cases hnext : step s with
    | next u => exact ih (hstep s u hs hnext) (run_succ_of_step hnext ▸ h)
    | fault r =>
      have hcore : core.step s = .fault r := hnext
      simp [Host.Core.run, hcore] at h
    | refused r =>
      have hcore : core.step s = .refused r := hnext
      simp [Host.Core.run, hcore] at h

end Sys2Proof.Machine
end

section
/-! The gate log replayed on the reset arena (R106): a fault leaves log and arena alone, and a command that completes
appends the words of the primitives it applies. -/

namespace Sys2Proof.Machine

/-- Replaying the words of primitives that their words name applies the primitives. -/
theorem replayLog_map_gateWord {E : List Gate} (h : ∀ g ∈ E, gateOfWord (gateWord g) = some g) (x : Arena) :
    replayLog (E.map gateWord) x = applyGates E x := by
  induction E generalizing x with
  | nil => rfl
  | cons g E ih =>
    obtain ⟨hg, hE⟩ := List.forall_mem_cons.mp h
    have first : replayLog [gateWord g] x = applyGate g x := by simp [replayLog, hg]
    calc replayLog ([gateWord g] ++ E.map gateWord) x
        = replayLog (E.map gateWord) (applyGate g x) := by rw [replayLog_append, first]
      _ = applyGates (g :: E) x := by rw [ih hE, applyGates_cons]

/-- The arena has `nreg` registers and is what the gate log makes of the reset arena. -/
def ReplaysFrom (nreg : Nat) (s : State) : Prop :=
  s.nreg = nreg ∧ replayLog s.gl (List.replicate nreg false) = s.x

theorem replaysFrom_boot (nreg : Nat) (cmds : List Word) : ReplaysFrom nreg (State.boot nreg cmds) :=
  ⟨boot_nreg nreg cmds, rfl⟩

theorem replaysFrom_takeFault {nreg : Nat} {s : State} (h : ReplaysFrom nreg s) (code : FaultCode) (w : Word) :
    ReplaysFrom nreg (takeFault code w s) := h

/-- With NREG legal every register of an expansion fits its field, so the words appended name the primitives applied. -/
theorem replaysFrom_exec {nreg : Nat} (hlegal : nreg ≤ Config.maxNReg) {i : Instr} {s t : State}
    (h : ReplaysFrom nreg s) (hexec : exec i s = .next t) : ReplaysFrom nreg t := by
  rcases exec_cases hexec with ⟨code, rfl⟩ | ⟨hwf, rfl⟩
  · exact replaysFrom_takeFault h code _
  · obtain ⟨hnreg, hreplay⟩ := h
    rw [hnreg] at hwf
    have named : ∀ g ∈ expand i, gateOfWord (gateWord g) = some g := fun g hg => gateOfWord_of_expand hwf hlegal hg
    constructor
    · rwa [State.nreg, afterCommand_x, length_applyGates]
    · rw [afterCommand_gl, afterCommand_x, replayLog_append, hreplay, replayLog_map_gateWord named]

theorem replaysFrom_step {nreg : Nat} (hlegal : nreg ≤ Config.maxNReg) (s t : State) (h : ReplaysFrom nreg s)
    (hstep : step s = .next t) : ReplaysFrom nreg t := by
  obtain ⟨-, w, -, ⟨e, -, rfl⟩ | ⟨i, -, hexec⟩⟩ := step_cases hstep
  · exact replaysFrom_takeFault h _ w
  · exact replaysFrom_exec hlegal h hexec

/-- Settles O19: the replay holds of the boot state, whose log is empty, and every step keeps it. -/
theorem logReplaysToArena : Obligations.LogReplaysToArena := by
  unfold Obligations.LogReplaysToArena
  intro nreg cmds n s hlegal hrun
  obtain ⟨-, hmax⟩ : 1 ≤ nreg ∧ nreg ≤ Config.maxNReg := by simpa [Config.legalNReg] using hlegal
  obtain ⟨-, hreplay⟩ := run_keeps (replaysFrom_step hmax) (replaysFrom_boot nreg cmds) hrun
  exact hreplay

end Sys2Proof.Machine
end

section
/-! The primitives as commands (R100 to R104): the checks of single registers, what decoding makes of their words, their
effect as one primitive on the arena, and which expansions hold a RESET. -/

namespace Sys2Proof.Machine

/-! ### Operands that are single registers -/

theorem fits_one (nreg : Nat) (t : RegIx) : fits nreg t 1 = decide (t.toNat < nreg) := rfl

/-- Two single registers do not overlap exactly when they differ (R76). -/
theorem apart_one (a b : RegIx) : apart a 1 b 1 = decide (a ≠ b) := by
  have differ : a ≠ b ↔ a.toNat + 1 ≤ b.toNat ∨ b.toNat + 1 ≤ a.toNat := by
    rw [ne_eq, ← BitVec.toNat_inj]
    omega
  simp only [apart, differ]

theorem wellFormed_flip {nreg : Nat} {t : RegIx} : (Instr.flip t).wellFormed nreg = true ↔ t.toNat < nreg := by
  simp [Instr.wellFormed, Instr.inRange, Instr.disjoint, fits_one]

theorem wellFormed_reset {nreg : Nat} {t : RegIx} : (Instr.reset t).wellFormed nreg = true ↔ t.toNat < nreg := by
  simp [Instr.wellFormed, Instr.inRange, Instr.disjoint, fits_one]

theorem inRange_cx {nreg : Nat} {c t : RegIx} :
    (Instr.cx c t).inRange nreg = true ↔ c.toNat < nreg ∧ t.toNat < nreg := by
  simp [Instr.inRange, fits_one]

theorem disjoint_cx {c t : RegIx} : (Instr.cx c t).disjoint = true ↔ c ≠ t := by
  simp [Instr.disjoint, apart_one]

theorem inRange_ccx {nreg : Nat} {c1 c2 t : RegIx} :
    (Instr.ccx c1 c2 t).inRange nreg = true ↔ c1.toNat < nreg ∧ c2.toNat < nreg ∧ t.toNat < nreg := by
  simp [Instr.inRange, fits_one, and_assoc]

theorem disjoint_ccx {c1 c2 t : RegIx} : (Instr.ccx c1 c2 t).disjoint = true ↔ c1 ≠ c2 ∧ c1 ≠ t ∧ c2 ≠ t := by
  simp [Instr.disjoint, apart3, apart_one, and_assoc]

theorem wellFormed_iff {nreg : Nat} {i : Instr} :
    i.wellFormed nreg = true ↔ i.inRange nreg = true ∧ i.disjoint = true := Bool.and_eq_true_iff

/-! ### Decoding by the opcode field -/

/-- A word with the field OPC of `o` decodes to that command of its fields, or fails R67, which `P` spells out. -/
theorem decode_of_opcField {o : Opcode} {w : Word} {P : Prop} [Decidable P] (hopc : opcField w = o.byte)
    (hP : unusedZero o w = true ↔ P) :
    decode w = if P then .ok (assembleFields o (aField w) (bField w) (cField w) (optField w) (immField w))
      else .error .illegalEncoding := by
  rw [decode_of_opcode (by rw [hopc, opcodeOf_byte])]
  simp only [hP]

/-! ### A command that is one primitive -/

/-- The command `i` is the primitive `g`: its expansion is `g` alone (R100), and its word is the one `g` leaves in the
log (R71). -/
structure IsPrimitive (i : Instr) (g : Gate) : Prop where
  expand_eq : expand i = [g]
  command_eq : gateCommand g = i

theorem isPrimitive_flip (t : RegIx) : IsPrimitive (.flip t) (.flip t.toNat) := ⟨rfl, by simp [gateCommand]⟩

theorem isPrimitive_cx (c t : RegIx) : IsPrimitive (.cx c t) (.cx c.toNat t.toNat) := ⟨rfl, by simp [gateCommand]⟩

theorem isPrimitive_ccx (c1 c2 t : RegIx) : IsPrimitive (.ccx c1 c2 t) (.ccx c1.toNat c2.toNat t.toNat) :=
  ⟨rfl, by simp [gateCommand]⟩

theorem isPrimitive_reset (t : RegIx) : IsPrimitive (.reset t) (.reset t.toNat) := ⟨rfl, by simp [gateCommand]⟩

section
variable {i : Instr} {g : Gate} {s u v : State}

/-- Such a command applies its primitive, logs its own word and advances the command index. -/
theorem exec_of_isPrimitive (hi : IsPrimitive i g) (hwf : i.wellFormed s.nreg = true) :
    exec i s = .next { s with x := applyGate g s.x, gl := s.gl ++ [encode i], ci := s.ci + 1 } := by
  have hword : gateWord g = encode i := by rw [gateWord, hi.command_eq]
  rw [exec_of_wellFormed hwf, afterCommand, hi.expand_eq, List.map_singleton, hword]
  rfl

theorem exec_x_of_isPrimitive (hi : IsPrimitive i g) (hwf : i.wellFormed s.nreg = true) (hu : exec i s = .next u) :
    u.x = applyGate g s.x := by
  rw [exec_of_isPrimitive hi hwf] at hu
  cases hu
  rfl

/-- Run twice, it applies its primitive twice: the arena keeps its length, so the checks pass again. -/
theorem exec_twice_of_isPrimitive (hi : IsPrimitive i g) (hwf : i.wellFormed s.nreg = true) (hu : exec i s = .next u)
    (hv : exec i u = .next v) : u.x = applyGate g s.x ∧ v.x = applyGate g u.x := by
  have hux := exec_x_of_isPrimitive hi hwf hu
  have hnreg : u.nreg = s.nreg := by rw [State.nreg, hux, length_applyGate, State.nreg]
  exact ⟨hux, exec_x_of_isPrimitive hi (hnreg ▸ hwf) hv⟩

/-- A primitive whose target is none of its controls adds the same bit again, unless it is RESET (R105). -/
theorem applyGate_applyGate (hreset : isReset g = false) (htarget : gateTarget g ∉ gateControls g) (x : Arena) :
    applyGate g (applyGate g x) = x := by
  refine arena_ext (by simp) fun j hj => ?_
  simp only [length_applyGate] at hj
  rw [readReg_applyGate hreset (by simpa using hj), readReg_applyGate hreset hj, gateBit_applyGate htarget,
    Bool.xor_assoc, Bool.xor_self, Bool.xor_false]

/-- So such a command, run twice, restores the arena. -/
theorem exec_twice_restores (hi : IsPrimitive i g) (hreset : isReset g = false)
    (htarget : gateTarget g ∉ gateControls g) (hwf : i.wellFormed s.nreg = true) (hu : exec i s = .next u)
    (hv : exec i u = .next v) : v.x = s.x := by
  obtain ⟨hux, hvx⟩ := exec_twice_of_isPrimitive hi hwf hu hv
  rw [hvx, hux, applyGate_applyGate hreset htarget]

end

/-! ### FLIP, CX and CCX -/

/-- Settles O24: FLIP is the primitive FLIP, which has no controls, and its one operand fails no check but the range. -/
theorem flipCommand : Obligations.FlipCommand := by
  unfold Obligations.FlipCommand
  refine ⟨fun t s => ⟨fun ht => ?_, fun ht => ?_⟩, fun w hw => ?_, fun t s u v ht hu hv => ?_⟩
  · exact exec_of_isPrimitive (isPrimitive_flip t) (wellFormed_flip.mpr ht)
  · exact exec_of_not_inRange (by simpa [Instr.inRange, fits_one] using ht)
  · exact decode_of_opcField (o := .flip) hw (by simp [unusedZero_eq_true, Opcode.uses])
  · exact exec_twice_restores (isPrimitive_flip t) rfl List.not_mem_nil (wellFormed_flip.mpr ht) hu hv

/-- Settles O25: CX is the primitive CX, whose target is not its control once the overlap check has passed. -/
theorem cxCommand : Obligations.CxCommand := by
  unfold Obligations.CxCommand
  have wellFormed_cx {c t : RegIx} {nreg : Nat} (hc : c.toNat < nreg) (ht : t.toNat < nreg) (hct : c ≠ t) :
      (Instr.cx c t).wellFormed nreg = true := wellFormed_iff.mpr ⟨inRange_cx.mpr ⟨hc, ht⟩, disjoint_cx.mpr hct⟩
  refine ⟨fun c t s => ⟨fun hc ht hct => ?_, fun hout => ?_, fun hc hct => ?_⟩, fun w hw => ?_,
    fun c t s u v hc ht hct hu hv => ?_⟩
  · exact exec_of_isPrimitive (isPrimitive_cx c t) (wellFormed_cx hc ht hct)
  · refine exec_of_not_inRange ?_
    rw [← Bool.not_eq_true, inRange_cx]
    omega
  · subst hct
    exact exec_of_overlap (inRange_cx.mpr ⟨hc, hc⟩) (by simp [← Bool.not_eq_true, disjoint_cx])
  · exact decode_of_opcField (o := .cx) hw (by simp [unusedZero_eq_true, Opcode.uses])
  · have htarget : t.toNat ∉ [c.toNat] := by simpa [BitVec.toNat_inj] using hct.symm
    exact exec_twice_restores (isPrimitive_cx c t) rfl htarget (wellFormed_cx hc ht hct) hu hv

/-- Settles O26: CCX is the primitive CCX, whose target is neither control once the overlap check has passed. -/
theorem ccxCommand : Obligations.CcxCommand := by
  unfold Obligations.CcxCommand
  refine ⟨fun c1 c2 t s => ⟨fun h1 h2 ht h12 h1t h2t => ?_, fun hout => ?_, fun h1 h2 ht heq => ?_⟩, fun w hw => ?_,
    fun c1 c2 t s u v hwf hu hv => ?_⟩
  · have hwf := wellFormed_iff.mpr ⟨inRange_ccx.mpr ⟨h1, h2, ht⟩, disjoint_ccx.mpr ⟨h12, h1t, h2t⟩⟩
    exact exec_of_isPrimitive (isPrimitive_ccx c1 c2 t) hwf
  · refine exec_of_not_inRange ?_
    rw [← Bool.not_eq_true, inRange_ccx]
    omega
  · refine exec_of_overlap (inRange_ccx.mpr ⟨h1, h2, ht⟩) ?_
    rw [← Bool.not_eq_true, disjoint_ccx]
    tauto
  · exact decode_of_opcField (o := .ccx) hw (by simp [unusedZero_eq_true, Opcode.uses])
  · obtain ⟨-, hdisjoint⟩ := wellFormed_iff.mp hwf
    obtain ⟨-, h1t, h2t⟩ := disjoint_ccx.mp hdisjoint
    have htarget : t.toNat ∉ [c1.toNat, c2.toNat] := by simpa [BitVec.toNat_inj] using ⟨h1t.symm, h2t.symm⟩
    exact exec_twice_restores (isPrimitive_ccx c1 c2 t) rfl htarget hwf hu hv

/-! ### Expansions without a RESET -/

/-- No primitive of `E` is RESET. -/
def ResetFree (E : List Gate) : Prop := ∀ g ∈ E, isReset g = false

theorem ResetFree.append {E F : List Gate} (hE : ResetFree E) (hF : ResetFree F) : ResetFree (E ++ F) :=
  List.forall_mem_append.mpr ⟨hE, hF⟩

theorem resetFree_map {α : Type} {l : List α} {f : α → Gate} (h : ∀ a, isReset (f a) = false) :
    ResetFree (l.map f) :=
  List.forall_mem_map.mpr fun a _ => h a

theorem resetFree_flatten {bs : List (List Gate)} (h : ∀ B ∈ bs, ResetFree B) : ResetFree bs.flatten :=
  List.forall_mem_flatten.mpr h

theorem resetFree_flatMap {α : Type} {l : List α} {f : α → List Gate} (h : ∀ a, ResetFree (f a)) :
    ResetFree (l.flatMap f) :=
  List.forall_mem_flatMap.mpr fun a _ => h a

theorem resetFree_cxPairs (a o : Nat) (l : List (Nat × Nat)) : ResetFree (cxPairs a o l) := resetFree_map fun _ => rfl

theorem resetFree_mulSeq (a b c : Nat) : ResetFree (mulSeq a b c) := resetFree_map fun _ => rfl

theorem resetFree_affSeq (c b : Nat) : ResetFree (affSeq c b) :=
  (resetFree_cxPairs c b _).append (by simp [ResetFree, isReset])

theorem resetFree_invUp (a w : Nat) : ∀ B ∈ invUp a w, ResetFree B := by
  simp only [invUp, List.forall_mem_cons]
  exact ⟨resetFree_cxPairs _ _ _, resetFree_cxPairs _ _ _, resetFree_cxPairs _ _ _, resetFree_mulSeq _ _ _,
    fun _ h => absurd h List.not_mem_nil⟩

theorem resetFree_sboxUp (a w : Nat) : ∀ B ∈ sboxUp a w, ResetFree B :=
  List.forall_mem_append.mpr ⟨resetFree_invUp a w, List.forall_mem_singleton.mpr (resetFree_mulSeq _ _ _)⟩

theorem resetFree_uncompute {bs : List (List Gate)} (h : ∀ B ∈ bs, ResetFree B) : ResetFree (uncompute bs) :=
  resetFree_flatten fun B hB => h B (List.mem_reverse.mp hB)

theorem resetFree_invSeq (a w o : Nat) : ResetFree (invSeq a w o) :=
  ((resetFree_flatten (resetFree_invUp a w)).append (resetFree_mulSeq _ _ _)).append
    (resetFree_uncompute (resetFree_invUp a w))

theorem resetFree_sboxSeq (a w o : Nat) : ResetFree (sboxSeq a w o) :=
  ((resetFree_flatten (resetFree_sboxUp a w)).append (resetFree_affSeq _ _)).append
    (resetFree_uncompute (resetFree_sboxUp a w))

theorem resetFree_srmcMix (top bot t1 t2 : Nat) : ResetFree (srmcMix top bot t1 t2) :=
  (((resetFree_cxPairs _ _ _).append (resetFree_cxPairs _ _ _)).append (resetFree_cxPairs _ _ _)).append
    (resetFree_cxPairs _ _ _)

theorem resetFree_srmcClean (top bot t1 t2 : Nat) : ResetFree (srmcClean top bot t1 t2) :=
  (((resetFree_cxPairs _ _ _).append (resetFree_cxPairs _ _ _)).append (resetFree_cxPairs _ _ _)).append
    (resetFree_cxPairs _ _ _)

theorem resetFree_srmcPair (top bot t1 t2 : Nat) (cleanup : Cleanup) : ResetFree (srmcPair top bot t1 t2 cleanup) := by
  have mix := resetFree_srmcMix top bot t1 t2
  cases cleanup with
  | clean => exact mix.append (resetFree_srmcClean top bot t1 t2)
  | noclean => exact mix.append fun _ h => absurd h List.not_mem_nil

theorem resetFree_rconSeq (k : Nat) (r : Round) : ResetFree (rconSeq k r) := by
  cases r <;> simp [ResetFree, rconSeq, isReset]

/-- The expansion of a command that R287 calls reversible holds no RESET. -/
theorem resetFree_expand {i : Instr} (h : reversible i = true) : ResetFree (expand i) := by
  cases i with
  | flip t => exact List.forall_mem_singleton.mpr rfl
  | cx c t => exact List.forall_mem_singleton.mpr rfl
  | ccx c1 c2 t => exact List.forall_mem_singleton.mpr rfl
  | reset t => cases h
  | gfSq a o => exact resetFree_cxPairs _ _ _
  | gfMul a b c => exact resetFree_mulSeq _ _ _
  | gfInv a w o => exact resetFree_invSeq _ _ _
  | gfMul4 a o => exact resetFree_cxPairs _ _ _
  | affine c b => exact resetFree_affSeq _ _
  | sbox a w o => exact resetFree_sboxSeq _ _ _
  | subnib s w o => cases h
  | srmc s w cleanup => exact (resetFree_srmcPair _ _ _ _ _).append (resetFree_srmcPair _ _ _ _ _)
  | keyexp k w r =>
    exact ((((resetFree_sboxSeq _ _ _).append (resetFree_sboxSeq _ _ _)).append (resetFree_rconSeq _ _)).append
      (resetFree_cxPairs _ _ _)).append (resetFree_cxPairs _ _ _)
  | addrk s k layout => exact resetFree_flatMap fun n => resetFree_cxPairs _ _ _
  | addrkConst s k imm => exact resetFree_flatMap fun j => by simp [ResetFree, isReset]
  | loadc b imm => exact resetFree_map fun _ => rfl

theorem not_reversible {i : Instr} (h : reversible i = false) : (∃ t, i = .reset t) ∨ ∃ s w o, i = .subnib s w o := by
  cases i with
  | reset t => exact .inl ⟨t, rfl⟩
  | subnib s w o => exact .inr ⟨s, w, o, rfl⟩
  | _ => cases h

/-! ### RESET -/

theorem writeReg_writeReg (x : Arena) (i : Nat) (u v : Bool) : writeReg (writeReg x i u) i v = writeReg x i v :=
  List.set_set ..

/-- Settles O27: RESET is the primitive RESET, whose write hides every earlier write to its target, and the commands
other than RESET and SUBNIB have RESET-free expansions. -/
theorem resetCommand : Obligations.ResetCommand := by
  unfold Obligations.ResetCommand
  refine ⟨fun t s => ⟨fun ht => ?_, fun ht => ?_⟩, fun w hw => ?_, fun t s u v ht hu hv => ?_, fun t s ht => ?_, ?_⟩
  · exact exec_of_isPrimitive (isPrimitive_reset t) (wellFormed_reset.mpr ht)
  · exact exec_of_not_inRange (by simpa [Instr.inRange, fits_one] using ht)
  · exact decode_of_opcField (o := .reset) hw (by simp [unusedZero_eq_true, Opcode.uses])
  · obtain ⟨hux, hvx⟩ := exec_twice_of_isPrimitive (isPrimitive_reset t) (wellFormed_reset.mpr ht) hu hv
    rw [hvx, hux]
    exact writeReg_writeReg s.x t.toNat false false
  · have hinverted : t.toNat < State.nreg { s with x := writeReg s.x t.toNat (!readReg s.x t.toNat) } := by
      rwa [State.nreg, length_writeReg]
    rw [exec_of_isPrimitive (isPrimitive_reset t) (wellFormed_reset.mpr hinverted),
      exec_of_isPrimitive (isPrimitive_reset t) (wellFormed_reset.mpr ht)]
    simp only [applyGate, writeReg_writeReg]
  · rintro i ⟨g, hg, hreset⟩
    refine not_reversible (Bool.eq_false_iff.mpr fun hrev => ?_)
    simp [resetFree_expand hrev g hg] at hreset

end Sys2Proof.Machine
end

section
/-! Uncomputing a chain of blocks (R151): a block adds to each register what its gates read on entry, so it adds the
same again when run twice, and a chain of blocks is undone from its last block to its first. -/

namespace Sys2Proof.Machine

/-! ### A block run twice -/

/-- A block in the sense of R151: XOR-accumulations whose targets are none of the block's own controls. -/
def XorBlock (E : List Gate) : Prop := ResetFree E ∧ ∀ g ∈ E, ∀ h ∈ E, gateTarget g ∉ gateControls h

/-- Gates that write no control of `E` leave what `E` adds unchanged. -/
theorem gatesSum_applyGates {E F : List Gate} (hc : ∀ g ∈ F, ∀ h ∈ E, gateTarget g ∉ gateControls h) (x : Arena)
    (j : Nat) : gatesSum E (applyGates F x) j = gatesSum E x j := by
  induction F generalizing x with
  | nil => rfl
  | cons g F ih =>
    rw [applyGates_cons, ih fun g' hg => hc g' (List.mem_cons_of_mem _ hg), gatesSum_applyGate (hc g List.mem_cons_self)]

theorem XorBlock.applyGates_twice {E : List Gate} (hE : XorBlock E) (x : Arena) :
    applyGates E (applyGates E x) = x := by
  obtain ⟨hreset, hcontrols⟩ := hE
  refine arena_ext (by simp) fun j hj => ?_
  have hx : j < x.length := by simpa using hj
  have hEx : j < (applyGates E x).length := by simpa using hx
  calc readReg (applyGates E (applyGates E x)) j
      = (readReg (applyGates E x) j ^^ gatesSum E (applyGates E x) j) := readReg_applyGates hreset hcontrols hEx
    _ = ((readReg x j ^^ gatesSum E x j) ^^ gatesSum E x j) := by
        rw [readReg_applyGates hreset hcontrols hx, gatesSum_applyGates hcontrols]
    _ = readReg x j := by rw [Bool.xor_assoc, Bool.xor_self, Bool.xor_false]

/-! ### A chain of blocks and its uncompute -/

theorem uncompute_cons (B : List Gate) (blocks : List (List Gate)) :
    uncompute (B :: blocks) = uncompute blocks ++ B := by
  simp [uncompute]

theorem applyGates_uncompute {blocks : List (List Gate)} (h : ∀ B ∈ blocks, XorBlock B) (x : Arena) :
    applyGates (uncompute blocks) (applyGates blocks.flatten x) = x := by
  induction blocks generalizing x with
  | nil => rfl
  | cons B blocks ih =>
    obtain ⟨hB, hblocks⟩ := List.forall_mem_cons.mp h
    rw [List.flatten_cons, applyGates_append, uncompute_cons, applyGates_append, ih hblocks, hB.applyGates_twice]

/-- Settles O17: each block undoes itself, so the blocks in reverse order undo the chain, by induction on the list of
blocks. -/
theorem uncomputeRestores : Obligations.UncomputeRestores := by
  unfold Obligations.UncomputeRestores
  intro blocks x h
  have hblocks : ∀ B ∈ blocks, XorBlock B := by
    intro B hB
    refine ⟨fun g hg => ?_, fun g hg => ?_⟩ <;> obtain ⟨-, hreset, hcontrols⟩ := h B hB g hg
    · exact hreset
    · exact hcontrols
  refine ⟨fun B hB => (hblocks B hB).applyGates_twice x, ?_⟩
  rw [applyGates_append]
  exact applyGates_uncompute hblocks x

end Sys2Proof.Machine
end

section
/-! The S-box sequence with a clean workspace (R152): UP5 leaves the inverse of nib(a) in the last workspace nibble, and
DOWN5, which does not touch the output nibble, restores the workspace around the one XOR into it. -/

namespace Sys2Proof.Machine

/-! ### Clean regions -/

theorem clean_iff {x : Arena} {b n : Nat} : clean x b n = true ↔ ∀ k, k < n → readReg x (b + k) = false := by
  simp [clean]

/-- A region stays clean where no register of it changes. -/
theorem clean_of_readReg_eq {x y : Arena} {b n : Nat} (hclean : clean x b n = true)
    (h : ∀ j, b ≤ j → j < b + n → readReg y j = readReg x j) : clean y b n = true :=
  clean_iff.mpr fun k hk => by rw [h (b + k) (by omega) (by omega), clean_iff.mp hclean k hk]

theorem nib_of_clean {x : Arena} {b n k : Nat} (hclean : clean x b n = true) (hk : k + 4 ≤ n) : nib x (b + k) = 0 := by
  apply BitVec.eq_of_getLsbD_eq
  intro i hi
  rw [getLsbD_nib _ _ _ hi, Nat.add_assoc, clean_iff.mp hclean (k + i) (by omega), BitVec.ofNat_eq_ofNat,
    BitVec.getLsbD_zero]

/-! ### Registers a list of primitives does not name -/

theorem applyGate_writeReg {g : Gate} {j : Nat} (h : ∀ i ∈ gateTarget g :: gateControls g, i ≠ j) (x : Arena)
    (v : Bool) : applyGate g (writeReg x j v) = writeReg (applyGate g x) j v := by
  cases g with
  | flip t =>
    have ht : t ≠ j := by simpa [gateTarget, gateControls] using h
    simp only [applyGate, readReg_writeReg_other ht.symm]
    exact List.set_comm _ _ ht.symm
  | cx c t =>
    obtain ⟨ht, hc⟩ : t ≠ j ∧ c ≠ j := by simpa [gateTarget, gateControls] using h
    simp only [applyGate, readReg_writeReg_other ht.symm, readReg_writeReg_other hc.symm]
    exact List.set_comm _ _ ht.symm
  | ccx c1 c2 t =>
    obtain ⟨ht, h1, h2⟩ : t ≠ j ∧ c1 ≠ j ∧ c2 ≠ j := by simpa [gateTarget, gateControls] using h
    simp only [applyGate, readReg_writeReg_other ht.symm, readReg_writeReg_other h1.symm,
      readReg_writeReg_other h2.symm]
    exact List.set_comm _ _ ht.symm
  | reset t =>
    have ht : t ≠ j := by simpa [gateTarget, gateControls] using h
    exact List.set_comm _ _ ht.symm

theorem applyGates_writeReg {E : List Gate} {j : Nat} (h : OperandsIn (· ≠ j) E) (x : Arena) (v : Bool) :
    applyGates E (writeReg x j v) = writeReg (applyGates E x) j v := by
  induction E generalizing x with
  | nil => rfl
  | cons g E ih =>
    obtain ⟨hg, hE⟩ := List.forall_mem_cons.mp h
    rw [applyGates_cons, applyGate_writeReg hg, ih hE, applyGates_cons]

/-- Primitives that name no register of a nibble keep it. -/
theorem nib_applyGates_other {E : List Gate} {o : Nat} (h : OperandsIn (fun j => ¬(o ≤ j ∧ j < o + 4)) E)
    (x : Arena) : nib (applyGates E x) o = nib x o := by
  apply BitVec.eq_of_getLsbD_eq
  intro k hk
  have untouched : ∀ g ∈ E, gateTarget g ≠ o + k := fun g hg heq => h g hg _ List.mem_cons_self (by omega)
  rw [getLsbD_nib _ _ _ hk, getLsbD_nib _ _ _ hk, readReg_applyGates_other untouched]

/-- They commute with an XOR of that nibble. -/
theorem applyGates_xorNib {E : List Gate} {o : Nat} (h : OperandsIn (fun j => ¬(o ≤ j ∧ j < o + 4)) E) (x : Arena)
    (v : Nibble) : applyGates E (xorNib x o v) = xorNib (applyGates E x) o v := by
  have inside {i : Nat} (hi : o ≤ i ∧ i < o + 4) (y : Arena) (b : Bool) :
      applyGates E (writeReg y i b) = writeReg (applyGates E y) i b :=
    applyGates_writeReg (fun g hg j hj heq => h g hg j hj (heq ▸ hi)) y b
  rw [xorNib, xorNib, nib_applyGates_other h, setNib, setNib, inside (by omega), inside (by omega),
    inside (by omega), inside (by omega)]

/-! ### The blocks of UP5 -/

theorem xorBlock_cxPairs {l : List (Nat × Nat)} (hl : ∀ p ∈ l, p.1 < 4 ∧ p.2 < 4) {a o : Nat}
    (h : a + 4 ≤ o ∨ o + 4 ≤ a) : XorBlock (cxPairs a o l) := by
  refine ⟨resetFree_cxPairs a o l, fun g hg g' hg' => ?_⟩
  obtain ⟨p, hp, rfl⟩ := List.mem_map.mp hg
  obtain ⟨q, hq, rfl⟩ := List.mem_map.mp hg'
  have := hl p hp
  have := hl q hq
  simp only [gateTarget, gateControls, List.mem_singleton]
  omega

theorem xorBlock_sqSeq {a o : Nat} (h : a + 4 ≤ o ∨ o + 4 ≤ a) : XorBlock (sqSeq a o) :=
  xorBlock_cxPairs (by decide) h

theorem xorBlock_mulSeq {a b c : Nat} (ha : a + 4 ≤ c ∨ c + 4 ≤ a) (hb : b + 4 ≤ c ∨ c + 4 ≤ b) :
    XorBlock (mulSeq a b c) := by
  have terms_lt : ∀ t ∈ mulTerms, t.1 < 4 ∧ t.2.1 < 4 ∧ t.2.2 < 4 := by decide
  refine ⟨resetFree_mulSeq a b c, fun g hg g' hg' => ?_⟩
  obtain ⟨t, ht, rfl⟩ := List.mem_map.mp hg
  obtain ⟨u, hu, rfl⟩ := List.mem_map.mp hg'
  have := terms_lt t ht
  have := terms_lt u hu
  simp only [gateTarget, gateControls, List.mem_cons, List.not_mem_nil, or_false]
  omega

section
variable {x : Arena} {a w o : Nat}

theorem xorBlock_sboxUp (haw : a + 4 ≤ w ∨ w + 20 ≤ a) : ∀ B ∈ sboxUp a w, XorBlock B := by
  simp only [sboxUp, invUp, List.cons_append, List.nil_append, List.forall_mem_cons]
  exact ⟨xorBlock_sqSeq (by omega), xorBlock_sqSeq (by omega), xorBlock_sqSeq (by omega),
    xorBlock_mulSeq (by omega) (by omega), xorBlock_mulSeq (by omega) (by omega), fun _ h => absurd h List.not_mem_nil⟩

/-- With the workspace clean the chain of UP5 ends with the inverse in the nibble w+16: the four steps before it put
a^2, a^4, a^8 and a^8 * a^4 into the other nibbles (R127, R152). -/
theorem nib_sboxUp_of_clean (hw : w + 20 ≤ x.length) (haw : a + 4 ≤ w ∨ w + 20 ≤ a) (hclean : clean x w 20 = true) :
    nib (applyGates (sboxUp a w).flatten x) (w + 16) = ginv (nib x a) := by
  have h0 : nib x w = 0 := nib_of_clean (k := 0) hclean (by decide)
  have h1 : nib x (w + 4) = 0 := nib_of_clean hclean (by decide)
  have h2 : nib x (w + 8) = 0 := nib_of_clean hclean (by decide)
  have h3 : nib x (w + 12) = 0 := nib_of_clean hclean (by decide)
  have h4 : nib x (w + 16) = 0 := nib_of_clean hclean (by decide)
  have chain : applyGates (sboxUp a w).flatten x =
      applyGates (mulSeq (w + 12) w (w + 16)) (applyGates (mulSeq (w + 8) (w + 4) (w + 12))
        (applyGates (sqSeq (w + 4) (w + 8)) (applyGates (sqSeq w (w + 4)) (applyGates (sqSeq a w) x)))) := by
    simp [sboxUp, invUp, applyGates_append]
  rw [chain, applyGates_sqSeq (a := a) (by omega) (by omega), applyGates_sqSeq (a := w) (by simp; omega) (by omega),
    applyGates_sqSeq (a := w + 4) (by simp; omega) (by omega), applyGates_mulSeq (by simp; omega) (by omega) (by omega),
    applyGates_mulSeq (by simp; omega) (by omega) (by omega)]
  simp (disch := (try simp only [length_xorNib]); omega) only [nib_xorNib_same, nib_xorNib_other, h0, h1, h2, h3, h4,
    BitVec.ofNat_eq_ofNat, BitVec.zero_xor]
  rfl

/-- The S-box is the affine map after the inverse (R150). -/
theorem sboxVal_eq_aff_ginv : ∀ v : Nibble, sboxVal v = aff (ginv v) := by decide

/-- SBOXSEQ(a, w, o) with the workspace clean: nib(o) ^= S(nib(a)), and nothing else changes (R152). -/
theorem applyGates_sboxSeq_of_clean (hw : w + 20 ≤ x.length) (ho : o + 4 ≤ x.length) (haw : a + 4 ≤ w ∨ w + 20 ≤ a)
    (hao : a + 4 ≤ o ∨ o + 4 ≤ a) (hwo : w + 20 ≤ o ∨ o + 4 ≤ w) (hclean : clean x w 20 = true) :
    applyGates (sboxSeq a w o) x = xorNib x o (sboxVal (nib x a)) := by
  have up_avoids : ∀ B ∈ sboxUp a w, OperandsIn (fun j => ¬(o ≤ j ∧ j < o + 4)) B :=
    operandsIn_sboxUp (fun j _ _ => by omega) (fun j _ _ => by omega)
  have down : applyGates (uncompute (sboxUp a w)) (applyGates (sboxUp a w).flatten x) = x :=
    applyGates_uncompute (xorBlock_sboxUp haw) x
  rw [sboxSeq, applyGates_append, applyGates_append, applyGates_affSeq (by simpa) (by omega),
    nib_sboxUp_of_clean hw haw hclean, applyGates_xorNib (operandsIn_uncompute up_avoids), down, sboxVal_eq_aff_ginv]

end

end Sys2Proof.Machine
end

section
/-! KEYEXP (R191) against the classical schedule (R203): what a command makes of the arena, that this is one step of the
byte recurrence on the two bytes of the key block, and that the workspace stays clean. -/

namespace Sys2Proof.Machine

/-! ### The arena after KEYEXP -/

/-- The flips of the round constant are one XOR of the nibble K0 (R190). -/
theorem applyGates_rconSeq {x : Arena} {k : Nat} (hk : k + 4 ≤ x.length) (r : Round) :
    applyGates (rconSeq k r) x = xorNib x k (rconNib r) := by
  apply applyGates_eq_xorNib hk (resetFree_rconSeq k r)
  · cases r <;> simp [rconSeq, gateControls]
  · cases r <;> simp [rconSeq, gateTarget]
  · intro i hi
    have hi' : i = 0 ∨ i = 1 ∨ i = 2 ∨ i = 3 := by omega
    rcases hi' with rfl | rfl | rfl | rfl <;> cases r <;>
      simp [rconSeq, gatesSum, gateTarget, gateBit, rconNib, rcon]

theorem readReg_xorNib_other {x : Arena} {o j : Nat} (ho : o + 4 ≤ x.length) (h : j < o ∨ o + 4 ≤ j) (v : Nibble) :
    readReg (xorNib x o v) j = readReg x j := by
  rw [readReg_xorNib ho, if_neg (by omega)]

/-- What KEYEXP makes of the arena: S(K3) and the round constant into K0, S(K2) into K1, then the new K0 into K2 and the
new K1 into K3 (R191, R192). -/
def keyexpArena (x : Arena) (k : Nat) (r : Round) : Arena :=
  let x1 := xorNib x k (sboxVal (nib x (k + 12)))
  let x2 := xorNib x1 (k + 4) (sboxVal (nib x1 (k + 8)))
  let x3 := xorNib x2 k (rconNib r)
  let x4 := xorNib x3 (k + 8) (nib x3 k)
  xorNib x4 (k + 12) (nib x4 (k + 4))

@[simp] theorem length_keyexpArena (x : Arena) (k : Nat) (r : Round) : (keyexpArena x k r).length = x.length := by
  simp [keyexpArena]

/-- The expansion of KEYEXP with the workspace clean, sub-sequence by sub-sequence. -/
theorem applyGates_expandKeyexp {k w : RegIx} {x : Arena} (hk : k.toNat + 16 ≤ x.length)
    (hw : w.toNat + 20 ≤ x.length) (hkw : k.toNat + 16 ≤ w.toNat ∨ w.toNat + 20 ≤ k.toNat)
    (hclean : clean x w.toNat 20 = true) (r : Round) :
    applyGates (expandKeyexp k w r) x = keyexpArena x k.toNat r := by
  have still_clean (v : Nibble) : clean (xorNib x k.toNat v) w.toNat 20 = true :=
    clean_of_readReg_eq hclean fun j _ _ => readReg_xorNib_other (by omega) (by omega) v
  simp only [expandKeyexp, applyGates_append]
  rw [applyGates_sboxSeq_of_clean hw (by omega) (by omega) (by omega) (by omega) hclean,
    applyGates_sboxSeq_of_clean (by simpa) (by simp; omega) (by omega) (by omega) (by omega) (still_clean _),
    applyGates_rconSeq (by simp; omega), applyGates_cxNibble (by simp; omega) (by omega),
    applyGates_cxNibble (by simp; omega) (by omega)]
  rfl

section
variable {x : Arena} {k : Nat} (hk : k + 16 ≤ x.length) (r : Round)
include hk

/-- The four key nibbles after KEYEXP (R191). -/
theorem nib_keyexpArena :
    nib (keyexpArena x k r) k = nib x k ^^^ sboxVal (nib x (k + 12)) ^^^ rconNib r ∧
    nib (keyexpArena x k r) (k + 4) = nib x (k + 4) ^^^ sboxVal (nib x (k + 8)) ∧
    nib (keyexpArena x k r) (k + 8) = nib x (k + 8) ^^^ nib (keyexpArena x k r) k ∧
    nib (keyexpArena x k r) (k + 12) = nib x (k + 12) ^^^ nib (keyexpArena x k r) (k + 4) := by
  unfold keyexpArena
  simp (disch := (try simp only [length_xorNib]); omega) only [nib_xorNib_same, nib_xorNib_other, and_self]

/-- KEYEXP changes no register outside the key block. -/
theorem readReg_keyexpArena_other {j : Nat} (h : j < k ∨ k + 16 ≤ j) :
    readReg (keyexpArena x k r) j = readReg x j := by
  unfold keyexpArena
  simp (disch := (try simp only [length_xorNib]); omega) only [readReg_xorNib_other]

end

/-! ### The key block as two bytes (R203, R204) -/

/-- The two bytes of the key block at b: the nibbles K0, K1 and K2, K3. -/
def keyBytes (x : Arena) (b : Nat) : Byte × Byte := (nib x b ++ nib x (b + 4), nib x (b + 8) ++ nib x (b + 12))

theorem joinKey_nibbles (n0 n1 n2 n3 : Nibble) : joinKey (n0 ++ n1, n2 ++ n3) = n0 ++ n1 ++ n2 ++ n3 :=
  (BitVec.append_assoc (x₁ := n0 ++ n1) (x₂ := n2) (x₃ := n3)).symm

theorem joinKey_keyBytes (x : Arena) (b : Nat) : joinKey (keyBytes x b) = val16 x b := joinKey_nibbles _ _ _ _

/-- The bytes the schedule takes from a key are those it was joined from (R203). -/
theorem bytes_joinKey (p : Byte × Byte) : ((joinKey p).extractLsb' 8 8, (joinKey p).extractLsb' 0 8) = p :=
  Prod.ext BitVec.extractLsb'_append_eq_left BitVec.extractLsb'_append_eq_right

/-- The round keys of the key in a block, by the bytes of the block. -/
theorem roundKeys_val16 (x : Arena) (b : Nat) :
    roundKeys (val16 x b) =
      [val16 x b, joinKey (scheduleStep .one (keyBytes x b)),
        joinKey (scheduleStep .two (scheduleStep .one (keyBytes x b)))] := by
  rw [← joinKey_keyBytes]
  simp only [roundKeys, bytes_joinKey]

/-- The low nibble of a round constant is zero (R190). -/
theorem rcon_eq_append (r : Round) : rcon r = rconNib r ++ (0 : Nibble) := by
  cases r <;> rfl

theorem subNib8_rotNib8 (m n : Nibble) : subNib8 (rotNib8 (m ++ n)) = sboxVal n ++ sboxVal m := by
  have hi (u v : Nibble) : hiNib (u ++ v) = u := BitVec.extractLsb'_append_eq_left
  have lo (u v : Nibble) : loNib (u ++ v) = v := BitVec.extractLsb'_append_eq_right
  rw [rotNib8, hi, lo, subNib8, hi, lo]

/-- One step of the byte recurrence, nibble by nibble. -/
theorem scheduleStep_nibbles (r : Round) (n0 n1 n2 n3 : Nibble) :
    scheduleStep r (n0 ++ n1, n2 ++ n3) =
      ((n0 ^^^ sboxVal n3 ^^^ rconNib r) ++ (n1 ^^^ sboxVal n2),
        (n2 ^^^ (n0 ^^^ sboxVal n3 ^^^ rconNib r)) ++ (n3 ^^^ (n1 ^^^ sboxVal n2))) := by
  have next : (n0 ++ n1) ^^^ rcon r ^^^ subNib8 (rotNib8 (n2 ++ n3)) =
      (n0 ^^^ sboxVal n3 ^^^ rconNib r) ++ (n1 ^^^ sboxVal n2) := by
    rw [rcon_eq_append, subNib8_rotNib8, BitVec.xor_append, BitVec.xor_append, BitVec.ofNat_eq_ofNat, BitVec.xor_zero,
      BitVec.xor_assoc, BitVec.xor_comm (rconNib r), ← BitVec.xor_assoc]
  rw [scheduleStep, next, BitVec.xor_append]

/-- KEYEXP is one step of the byte recurrence on the key block. -/
theorem keyBytes_keyexpArena {x : Arena} {k : Nat} (hk : k + 16 ≤ x.length) (r : Round) :
    keyBytes (keyexpArena x k r) k = scheduleStep r (keyBytes x k) := by
  obtain ⟨h0, h1, h2, h3⟩ := nib_keyexpArena hk r
  simp only [keyBytes, h2, h3, h0, h1, scheduleStep_nibbles]

/-! ### The command -/

theorem wellFormed_keyexp {nreg : Nat} {k w : RegIx} {r : Round} :
    (Instr.keyexp k w r).wellFormed nreg = true ↔
      (k.toNat + 16 ≤ nreg ∧ w.toNat + 20 ≤ nreg) ∧
        (k.toNat + 16 ≤ w.toNat ∨ w.toNat + 20 ≤ k.toNat) := by
  simp [Instr.wellFormed, Instr.inRange, Instr.disjoint, fits, apart]

/-- KEYEXP on a clean workspace completes, takes the key block one step along the recurrence, and leaves the workspace
clean. -/
theorem exec_keyexp_of_clean {k w : RegIx} {r : Round} {s : State}
    (hwf : (Instr.keyexp k w r).wellFormed s.nreg = true) (hclean : clean s.x w.toNat 20 = true) :
    ∃ t, exec (.keyexp k w r) s = .next t ∧ t.nreg = s.nreg ∧
      keyBytes t.x k.toNat = scheduleStep r (keyBytes s.x k.toNat) ∧ clean t.x w.toNat 20 = true := by
  obtain ⟨⟨hk, hw⟩, hkw⟩ := wellFormed_keyexp.mp hwf
  have harena : applyGates (expand (.keyexp k w r)) s.x = keyexpArena s.x k.toNat r :=
    applyGates_expandKeyexp hk hw hkw hclean r
  refine ⟨_, exec_of_wellFormed hwf, ?_⟩
  rw [State.nreg, afterCommand_x, harena]
  exact ⟨length_keyexpArena _ _ _, keyBytes_keyexpArena hk r,
    clean_of_readReg_eq hclean fun j _ _ => readReg_keyexpArena_other hk r (by omega)⟩

/-- Settles O39: the two commands are the two steps of the recurrence, and the first leaves the workspace clean for the
second. -/
theorem keyexpMatchesClassical : Obligations.KeyexpMatchesClassical := by
  unfold Obligations.KeyexpMatchesClassical
  rintro k w key s hwf rfl hclean
  obtain ⟨t, hexec, hnreg, hbytes, hclean_t⟩ := exec_keyexp_of_clean hwf hclean
  have hwf_two : (Instr.keyexp k w .two).wellFormed t.nreg = true := by
    rw [hnreg]
    exact wellFormed_keyexp.mpr (wellFormed_keyexp.mp hwf)
  obtain ⟨u, hexec_two, -, hbytes_two, hclean_u⟩ := exec_keyexp_of_clean hwf_two hclean_t
  refine ⟨t, u, hexec, hexec_two, ?_, hclean_t, ?_, hclean_u⟩
  · rw [roundKeys_val16, ← hbytes, joinKey_keyBytes]
    rfl
  · rw [roundKeys_val16, ← hbytes, ← hbytes_two, joinKey_keyBytes u.x]
    rfl

end Sys2Proof.Machine
end

section
/-! PARSE16 (R200): the two checks, and the bits of the value by Horner's rule on the characters. -/

namespace Sys2Proof.Machine

/-- The value of `n` characters, of which those with `p` are '1' and the first is the most significant. -/
def charsValue (p : Nat → Prop) [DecidablePred p] (n : Nat) : Nat :=
  ((List.range n).map fun j => if p j then 2 ^ (n - 1 - j) else 0).sum

theorem bitsValue_eq_charsValue (t : List Char) :
    bitsValue t = BitVec.ofNat 16 (charsValue (fun j => t.getD j '0' = '1') 16) := rfl

section
variable {p : Nat → Prop} [DecidablePred p] {n j : Nat}

/-- One more character doubles the value of those before it and is the new lowest bit. -/
theorem charsValue_succ : charsValue p (n + 1) = Nat.bit (decide (p n)) (charsValue p n) := by
  have doubled : ((List.range n).map fun j => if p j then 2 ^ (n + 1 - 1 - j) else 0).sum = 2 * charsValue p n := by
    rw [charsValue, ← List.sum_map_mul_left]
    refine congrArg List.sum (List.map_congr_left fun j hj => ?_)
    have hexp : n + 1 - 1 - j = n - 1 - j + 1 := by
      have := List.mem_range.mp hj
      omega
    rw [hexp, pow_succ, mul_ite, mul_comm, mul_zero]
  rw [charsValue, List.range_succ, List.map_append, List.sum_append, doubled, Nat.bit_val]
  by_cases h : p n <;> simp [h]

/-- Character j of n is bit n - 1 - j of the value. -/
theorem testBit_charsValue (hj : j < n) : (charsValue p n).testBit (n - 1 - j) = decide (p j) := by
  induction n with
  | zero => omega
  | succ n ih =>
    rw [charsValue_succ]
    by_cases hlast : j = n
    · subst hlast
      rw [show j + 1 - 1 - j = 0 by omega, Nat.testBit_bit_zero]
    · rw [show n + 1 - 1 - j = (n - 1 - j).succ by omega, Nat.testBit_bit_succ, ih (by omega)]

end

/-- Character j of a string of 16 is bit 15 - j of its value (R200). -/
theorem getLsbD_bitsValue {t : List Char} (ht : t.length = 16) {j : Nat} (hj : j < 16) :
    (bitsValue t).getLsbD (15 - j) = true ↔ t[j]? = some '1' := by
  have hbit := testBit_charsValue (p := fun j => t.getD j '0' = '1') hj
  have hj' : j < t.length := by omega
  have hlow : 15 - j < 16 := by omega
  rw [bitsValue_eq_charsValue, BitVec.getLsbD_ofNat, hbit, List.getD_eq_getElem _ _ hj', List.getElem?_eq_getElem hj']
  simp [hlow]

/-- PARSE16 answers an error exactly where one of its two checks fails. -/
theorem parse16_eq_error {str : List Char}
    (h : (stripSpaces str).length ≠ 16 ∨ ∃ c ∈ stripSpaces str, c ≠ '0' ∧ c ≠ '1') :
    parse16 str = .error .inputValidation := by
  unfold parse16
  by_cases hlen : (stripSpaces str).length = 16
  · have hother : (stripSpaces str).any (fun c => c != '0' && c != '1') = true := by simpa [hlen] using h
    simp [hlen, hother]
  · simp [hlen]

theorem parse16_eq_ok {str : List Char} (hlen : (stripSpaces str).length = 16)
    (hchars : ∀ c ∈ stripSpaces str, c = '0' ∨ c = '1') : parse16 str = .ok (bitsValue (stripSpaces str)) := by
  have hbits : (stripSpaces str).any (fun c => c != '0' && c != '1') = false := by
    simpa [List.any_eq_false, ← or_iff_not_imp_left] using hchars
  simp [parse16, hlen, hbits]

/-- Settles O47: the checks of PARSE16 are those of the rule, and past both of them the value is read bit by bit. -/
theorem parse16Rule : Obligations.Parse16Rule := by
  unfold Obligations.Parse16Rule
  intro str
  exact ⟨parse16_eq_error, fun hlen hchars =>
    ⟨_, parse16_eq_ok hlen hchars, fun _ hj => getLsbD_bitsValue hlen hj⟩⟩

end Sys2Proof.Machine
end

section
/-! ADDRK on the logical state (R220, R221): the expansion adds the key nibbles one after another, each to the physical
nibble its layout gives it, and no nibble is hit twice because a layout map is injective. -/

namespace Sys2Proof.Machine

/-- A layout map is its own inverse (R170). -/
theorem physicalNibble_involutive (l : Layout) : Function.Involutive (physicalNibble l) := by
  intro n
  cases l with
  | ident => rfl
  | swap13 => simp only [physicalNibble]; split_ifs <;> omega

/-- The nibbles of a block are those of its value (R43). -/
theorem blockNib_val16 (x : Arena) (b : Nat) {n : Nat} (hn : n < 4) : blockNib (val16 x b) n = nib x (b + 4 * n) := by
  apply BitVec.eq_of_getLsbD_eq
  intro i hi
  have hquot : 3 - (4 * (3 - n) + i) / 4 = n := by omega
  have hrem : (4 * (3 - n) + i) % 4 = i := by omega
  rw [blockNib, BitVec.getLsbD_extractLsb', getLsbD_val16_eq_nib x b (by omega), hquot, hrem, decide_eq_true hi,
    Bool.true_and]

/-! ### The expansion, one key nibble at a time -/

/-- The part of ADDRK's expansion that adds the first `m` key nibbles. -/
def addrkUpTo (s k : Nat) (l : Layout) (m : Nat) : List Gate :=
  (List.range m).flatMap fun n => cxNibble (k + 4 * n) (s + 4 * physicalNibble l n)

theorem expand_addrk (s k : RegIx) (l : Layout) : expand (.addrk s k l) = addrkUpTo s.toNat k.toNat l 4 := rfl

theorem addrkUpTo_succ (s k : Nat) (l : Layout) (m : Nat) :
    addrkUpTo s k l (m + 1) = addrkUpTo s k l m ++ cxNibble (k + 4 * m) (s + 4 * physicalNibble l m) := by
  simp [addrkUpTo, List.range_succ]

section
variable {x : Arena} {s k m : Nat} (hs : s + 16 ≤ x.length) (hsk : s + 16 ≤ k ∨ k + 16 ≤ s) (l : Layout)
include hs hsk

theorem applyGates_addrkUpTo_succ (hm : m < 4) :
    applyGates (addrkUpTo s k l (m + 1)) x =
      xorNib (applyGates (addrkUpTo s k l m) x) (s + 4 * physicalNibble l m)
        (nib (applyGates (addrkUpTo s k l m) x) (k + 4 * m)) := by
  have := physicalNibble_lt hm l
  rw [addrkUpTo_succ, applyGates_append, applyGates_cxNibble (by simp; omega) (by omega)]

/-- Only the state block changes. -/
theorem nib_addrkUpTo_outside (hm : m ≤ 4) {c : Nat} (hc : c + 4 ≤ s ∨ s + 16 ≤ c) :
    nib (applyGates (addrkUpTo s k l m) x) c = nib x c := by
  induction m with
  | zero => rfl
  | succ m ih =>
    have := physicalNibble_lt (show m < 4 by omega) l
    rw [applyGates_addrkUpTo_succ hs hsk l (by omega), nib_xorNib_other (by simp; omega) (by omega), ih (by omega)]

/-- Of the physical nibbles π(n), those with `n < m` have taken their key nibble, and the others are as before. -/
theorem nib_addrkUpTo (hm : m ≤ 4) {n : Nat} (hn : n < 4) :
    nib (applyGates (addrkUpTo s k l m) x) (s + 4 * physicalNibble l n) =
      if n < m then nib x (s + 4 * physicalNibble l n) ^^^ nib x (k + 4 * n)
      else nib x (s + 4 * physicalNibble l n) := by
  induction m with
  | zero => rfl
  | succ m ih =>
    have := physicalNibble_lt (show m < 4 by omega) l
    have ih := ih (by omega)
    rw [applyGates_addrkUpTo_succ hs hsk l (by omega)]
    by_cases hnm : n = m
    · subst hnm
      rw [nib_xorNib_same (by simp; omega), ih, nib_addrkUpTo_outside hs hsk l (by omega) (by omega),
        if_neg (Nat.lt_irrefl n), if_pos (Nat.lt_succ_self n)]
    · have distinct : physicalNibble l n ≠ physicalNibble l m := fun h =>
        hnm ((physicalNibble_involutive l).injective h)
      have same_side : n < m + 1 ↔ n < m := by omega
      rw [nib_xorNib_other (by simp; omega) (by omega), ih, if_congr same_side rfl rfl]

/-- All four key nibbles added: AddRoundKey on the logical state (R220). -/
theorem logicalState_addrkUpTo :
    logicalState (applyGates (addrkUpTo s k l 4) x) s l = addKey (logicalState x s l) (val16 x k) := by
  have taken {n : Nat} (hn : n < 4) :
      nib (applyGates (addrkUpTo s k l 4) x) (s + 4 * physicalNibble l n) =
        nib x (s + 4 * physicalNibble l n) ^^^ blockNib (val16 x k) n := by
    rw [nib_addrkUpTo hs hsk l le_rfl hn, if_pos hn, blockNib_val16 x k hn]
  simp only [logicalState, addKey, Quad.mk.injEq]
  exact ⟨taken (by decide), taken (by decide), taken (by decide), taken (by decide)⟩

end

/-! ### The command -/

theorem wellFormed_addrk {nreg : Nat} {s k : RegIx} {l : Layout} :
    (Instr.addrk s k l).wellFormed nreg = true ↔
      (s.toNat + 16 ≤ nreg ∧ k.toNat + 16 ≤ nreg) ∧
        (s.toNat + 16 ≤ k.toNat ∨ k.toNat + 16 ≤ s.toNat) := by
  simp [Instr.wellFormed, Instr.inRange, Instr.disjoint, fits, apart]

/-- Settles O41: the command completes with its expansion, which adds every key nibble to its logical state nibble. -/
theorem addrkAddsRoundKey : Obligations.AddrkAddsRoundKey := by
  unfold Obligations.AddrkAddsRoundKey
  intro b k l s t hwf hexec
  obtain ⟨⟨hb, -⟩, hbk⟩ := wellFormed_addrk.mp hwf
  rw [exec_of_wellFormed hwf] at hexec
  cases hexec
  rw [afterCommand_x, expand_addrk]
  exact logicalState_addrkUpTo hb hbk l

end Sys2Proof.Machine
end

section
/-! Taking a fault (R241, R244): the step on a word that fails a check records the fault for that word, and no step follows
it. -/

namespace Sys2Proof.Machine

/-- Once a fault is recorded the run has ended, whatever the rest of the state holds (R32, R246). -/
theorem step_of_faulted {s : State} (h : s.fr.valid = true) : step s = .fault .runFaulted := by
  simp [step, h]

section
variable {s : State} {w : Word}

/-- A word that does not decode takes the fault of its decoding error (R74). -/
theorem step_faults_of_decode_error {e : DecodeError} (hready : s.fr.valid = false) (hfetch : fetch s = some w)
    (hdecode : decode w = .error e) : step s = .next (afterFault (decodeFault e).byte w s) := by
  rw [step_of_decode_error hready hfetch hdecode, takeFault_eq_afterFault]

/-- A fault that a command takes for its own word, the step takes for the word it fetched. -/
theorem step_faults_of_exec {i : Instr} {code : BitVec 8} (hready : s.fr.valid = false) (hfetch : fetch s = some w)
    (hdecode : decode w = .ok i) (hexec : exec i s = .next (afterFault code (encode i) s)) :
    step s = .next (afterFault code w s) := by
  rw [step_of_decode_ok hready hfetch hdecode, hexec, encode_of_decode hdecode]

end

/-- Settles O5: each of the four causes is an error of decoding or a failing operand check, and the fault record that
the step writes ends the run. -/
theorem faultEntry : Obligations.FaultEntry := by
  unfold Obligations.FaultEntry
  intro s w code hready hfetch hcause
  refine ⟨?_, step_of_faulted rfl⟩
  rcases hcause with ⟨hopcode, rfl⟩ | ⟨hencoding, rfl⟩ | ⟨i, hdecode, hrange, rfl⟩ |
    ⟨i, hdecode, hrange, hoverlap, rfl⟩
  · exact step_faults_of_decode_error hready hfetch hopcode
  · exact step_faults_of_decode_error hready hfetch hencoding
  · exact step_faults_of_exec hready hfetch hdecode (exec_of_not_inRange hrange)
  · exact step_faults_of_exec hready hfetch hdecode (exec_of_overlap hrange hoverlap)

end Sys2Proof.Machine
end

section
/-! No fault during an expansion (R245): the registers a primitive names are pairwise distinct, because they lie in
nibbles that share no register. With the bounds of `operandsIn_expand` every primitive is a valid command. -/

namespace Sys2Proof.Machine

/-- Every primitive of `E` names pairwise distinct registers. -/
def OperandsDistinct (E : List Gate) : Prop := ∀ g ∈ E, (gateTarget g :: gateControls g).Nodup

/-- A valid primitive: its registers lie below NREG and are pairwise distinct. -/
theorem gateValid_eq_true {nreg : Nat} {g : Gate} :
    gateValid nreg g = true ↔
      (∀ j ∈ gateTarget g :: gateControls g, j < nreg) ∧ (gateTarget g :: gateControls g).Nodup := by
  simp only [gateValid, Bool.and_eq_true, List.all_eq_true, decide_eq_true_eq]

/-! ### Lists of primitives -/

@[simp] theorem operandsDistinct_nil : OperandsDistinct [] := fun _ h => absurd h List.not_mem_nil

theorem OperandsDistinct.append {E F : List Gate} (hE : OperandsDistinct E) (hF : OperandsDistinct F) :
    OperandsDistinct (E ++ F) :=
  List.forall_mem_append.mpr ⟨hE, hF⟩

theorem operandsDistinct_flatten {bs : List (List Gate)} (h : ∀ B ∈ bs, OperandsDistinct B) :
    OperandsDistinct bs.flatten :=
  List.forall_mem_flatten.mpr h

theorem operandsDistinct_flatMap {α : Type} {l : List α} {f : α → List Gate} (h : ∀ v ∈ l, OperandsDistinct (f v)) :
    OperandsDistinct (l.flatMap f) :=
  List.forall_mem_flatMap.mpr h

/-- A primitive without controls names one register only. -/
theorem operandsDistinct_of_no_controls {E : List Gate} (h : ∀ g ∈ E, gateControls g = []) : OperandsDistinct E :=
  fun g hg => by rw [h g hg]; exact List.nodup_singleton _

theorem operandsDistinct_cx {c t : Nat} (h : c ≠ t) : OperandsDistinct [.cx c t] := by
  simp [OperandsDistinct, gateTarget, gateControls, h.symm]

theorem operandsDistinct_ccx {c1 c2 t : Nat} (h12 : c1 ≠ c2) (h1 : c1 ≠ t) (h2 : c2 ≠ t) :
    OperandsDistinct [.ccx c1 c2 t] := by
  simp [OperandsDistinct, gateTarget, gateControls, h12, h1.symm, h2.symm]

/-! ### The named sub-sequences, on nibbles that share no register -/

section
variable {a b c w o s t : Nat}

theorem operandsDistinct_cxPairs {l : List (Nat × Nat)} (hl : ∀ q ∈ l, q.1 < 4 ∧ q.2 < 4)
    (h : a + 4 ≤ o ∨ o + 4 ≤ a) : OperandsDistinct (cxPairs a o l) := by
  rw [cxPairs, List.map_eq_flatMap]
  refine operandsDistinct_flatMap fun q hq => ?_
  obtain ⟨h1, h2⟩ := hl q hq
  exact operandsDistinct_cx (by omega)

theorem operandsDistinct_cxNibble (h : a + 4 ≤ o ∨ o + 4 ≤ a) : OperandsDistinct (cxNibble a o) :=
  operandsDistinct_cxPairs (by decide) h

theorem operandsDistinct_sqSeq (h : a + 4 ≤ o ∨ o + 4 ≤ a) : OperandsDistinct (sqSeq a o) :=
  operandsDistinct_cxPairs (by decide) h

theorem operandsDistinct_mul4Seq (h : a + 4 ≤ o ∨ o + 4 ≤ a) : OperandsDistinct (mul4Seq a o) :=
  operandsDistinct_cxPairs (by decide) h

theorem operandsDistinct_mul2Seq (h : a + 4 ≤ o ∨ o + 4 ≤ a) : OperandsDistinct (mul2Seq a o) :=
  operandsDistinct_cxPairs (by decide) h

theorem operandsDistinct_mul8Seq (h : a + 4 ≤ o ∨ o + 4 ≤ a) : OperandsDistinct (mul8Seq a o) :=
  operandsDistinct_cxPairs (by decide) h

theorem operandsDistinct_mulSeq (hab : a + 4 ≤ b ∨ b + 4 ≤ a) (hac : a + 4 ≤ c ∨ c + 4 ≤ a)
    (hbc : b + 4 ≤ c ∨ c + 4 ≤ b) : OperandsDistinct (mulSeq a b c) := by
  have terms_lt : ∀ q ∈ mulTerms, q.1 < 4 ∧ q.2.1 < 4 ∧ q.2.2 < 4 := by decide
  rw [mulSeq, List.map_eq_flatMap]
  refine operandsDistinct_flatMap fun q hq => ?_
  obtain ⟨h1, h2, h3⟩ := terms_lt q hq
  exact operandsDistinct_ccx (by omega) (by omega) (by omega)

theorem operandsDistinct_affSeq (h : a + 4 ≤ o ∨ o + 4 ≤ a) : OperandsDistinct (affSeq a o) :=
  (operandsDistinct_cxPairs (by decide) h).append (operandsDistinct_of_no_controls (by simp [gateControls]))

/-! ### The S-box chain and its uncompute -/

theorem operandsDistinct_invUp (haw : a + 4 ≤ w ∨ w + 16 ≤ a) : ∀ B ∈ invUp a w, OperandsDistinct B := by
  simp only [invUp, List.forall_mem_cons]
  exact ⟨operandsDistinct_sqSeq (by omega), operandsDistinct_sqSeq (by omega), operandsDistinct_sqSeq (by omega),
    operandsDistinct_mulSeq (by omega) (by omega) (by omega), fun _ h => absurd h List.not_mem_nil⟩

theorem operandsDistinct_sboxUp (haw : a + 4 ≤ w ∨ w + 20 ≤ a) : ∀ B ∈ sboxUp a w, OperandsDistinct B := by
  have last : OperandsDistinct (mulSeq (w + 12) w (w + 16)) :=
    operandsDistinct_mulSeq (by omega) (by omega) (by omega)
  exact List.forall_mem_append.mpr ⟨operandsDistinct_invUp (by omega), List.forall_mem_singleton.mpr last⟩

theorem operandsDistinct_uncompute {bs : List (List Gate)} (h : ∀ B ∈ bs, OperandsDistinct B) :
    OperandsDistinct (uncompute bs) :=
  operandsDistinct_flatten fun B hB => h B (List.mem_reverse.mp hB)

theorem operandsDistinct_invSeq (haw : a + 4 ≤ w ∨ w + 16 ≤ a) (hwo : w + 16 ≤ o ∨ o + 4 ≤ w) :
    OperandsDistinct (invSeq a w o) := by
  have up := operandsDistinct_invUp haw
  have mid : OperandsDistinct (mulSeq (w + 12) w o) := operandsDistinct_mulSeq (by omega) (by omega) (by omega)
  exact ((operandsDistinct_flatten up).append mid).append (operandsDistinct_uncompute up)

theorem operandsDistinct_sboxSeq (haw : a + 4 ≤ w ∨ w + 20 ≤ a) (hwo : w + 20 ≤ o ∨ o + 4 ≤ w) :
    OperandsDistinct (sboxSeq a w o) := by
  have up := operandsDistinct_sboxUp haw
  have mid : OperandsDistinct (affSeq (w + 16) o) := operandsDistinct_affSeq (by omega)
  exact ((operandsDistinct_flatten up).append mid).append (operandsDistinct_uncompute up)

/-! ### The expansions that are more than one sub-sequence -/

theorem operandsDistinct_subnibOne (hsw : s + 4 ≤ w ∨ w + 20 ≤ s) (hso : s + 4 ≤ o ∨ o + 4 ≤ s)
    (hwo : w + 20 ≤ o ∨ o + 4 ≤ w) : OperandsDistinct (subnibOne s w o) := by
  have resets : OperandsDistinct (resetNibble s) := operandsDistinct_of_no_controls (by simp [resetNibble, gateControls])
  exact (((operandsDistinct_sboxSeq hsw hwo).append resets).append (operandsDistinct_cxNibble hso.symm)).append
    (operandsDistinct_cxNibble hso)

/-- The two nibbles of a column pair are never combined directly, nor its two scratch nibbles: only the former with the
latter. -/
theorem operandsDistinct_srmcPair {top bot t1 t2 : Nat} (htop1 : top + 4 ≤ t1 ∨ t1 + 4 ≤ top)
    (htop2 : top + 4 ≤ t2 ∨ t2 + 4 ≤ top) (hbot1 : bot + 4 ≤ t1 ∨ t1 + 4 ≤ bot) (hbot2 : bot + 4 ≤ t2 ∨ t2 + 4 ≤ bot)
    (cleanup : Cleanup) : OperandsDistinct (srmcPair top bot t1 t2 cleanup) := by
  have mix : OperandsDistinct (srmcMix top bot t1 t2) :=
    (((operandsDistinct_mul4Seq htop1).append (operandsDistinct_mul4Seq hbot2)).append
      (operandsDistinct_cxNibble htop2.symm)).append (operandsDistinct_cxNibble hbot1.symm)
  cases cleanup with
  | noclean => exact mix.append operandsDistinct_nil
  | clean =>
    exact mix.append ((((operandsDistinct_mul2Seq htop1).append (operandsDistinct_mul8Seq hbot1)).append
      (operandsDistinct_mul2Seq hbot2)).append (operandsDistinct_mul8Seq htop2))

theorem operandsDistinct_rconSeq (k : Nat) (r : Round) : OperandsDistinct (rconSeq k r) :=
  operandsDistinct_of_no_controls (by cases r <;> simp [rconSeq, gateControls])

end

/-- The same character of two blocks at different bases is in different registers (R43). -/
theorem charReg_ne {b c j : Nat} (h : b ≠ c) (hj : j < 16) : charReg b j ≠ charReg c j := by
  rw [charReg_eq b hj, charReg_eq c hj]
  omega

/-! ### Every expansion -/

theorem apart_eq_true {a b : RegIx} {m n : Nat} :
    apart a m b n = true ↔ a.toNat + m ≤ b.toNat ∨ b.toNat + n ≤ a.toNat := decide_eq_true_iff

theorem apart3_eq_true {a b c : RegIx} {m n l : Nat} :
    apart3 a m b n c l = true ↔ (a.toNat + m ≤ b.toNat ∨ b.toNat + n ≤ a.toNat) ∧
      (a.toNat + m ≤ c.toNat ∨ c.toNat + l ≤ a.toNat) ∧ (b.toNat + n ≤ c.toNat ∨ c.toNat + l ≤ b.toNat) := by
  simp only [apart3, Bool.and_eq_true, apart_eq_true, and_assoc]

/-- A command whose operand regions do not overlap (R76) expands into primitives on pairwise distinct registers. -/
theorem operandsDistinct_expand {i : Instr} (h : i.disjoint = true) : OperandsDistinct (expand i) := by
  cases i with
  | flip t => exact operandsDistinct_of_no_controls (List.forall_mem_singleton.mpr rfl)
  | cx c t =>
    have hct := apart_eq_true.mp h
    exact operandsDistinct_cx (by omega)
  | ccx c1 c2 t =>
    obtain ⟨h12, h1, h2⟩ := apart3_eq_true.mp h
    exact operandsDistinct_ccx (by omega) (by omega) (by omega)
  | reset t => exact operandsDistinct_of_no_controls (List.forall_mem_singleton.mpr rfl)
  | gfSq a o => exact operandsDistinct_sqSeq (apart_eq_true.mp h)
  | gfMul a b c =>
    obtain ⟨hab, hac, hbc⟩ := apart3_eq_true.mp h
    exact operandsDistinct_mulSeq hab hac hbc
  | gfInv a w o =>
    obtain ⟨haw, -, hwo⟩ := apart3_eq_true.mp h
    exact operandsDistinct_invSeq haw hwo
  | gfMul4 a o => exact operandsDistinct_mul4Seq (apart_eq_true.mp h)
  | affine c b => exact operandsDistinct_affSeq (apart_eq_true.mp h)
  | sbox a w o =>
    obtain ⟨haw, -, hwo⟩ := apart3_eq_true.mp h
    exact operandsDistinct_sboxSeq haw hwo
  | subnib s w o =>
    obtain ⟨hsw, hso, hwo⟩ := apart3_eq_true.mp h
    refine operandsDistinct_flatMap fun n hn => ?_
    have hn : n < 4 := List.mem_range.mp hn
    exact operandsDistinct_subnibOne (by omega) (by omega) (by omega)
  | srmc s w cleanup =>
    have hsw := apart_eq_true.mp h
    have outer : OperandsDistinct (srmcPair s.toNat (s.toNat + 12) w.toNat (w.toNat + 4) cleanup) :=
      operandsDistinct_srmcPair (by omega) (by omega) (by omega) (by omega) cleanup
    have inner : OperandsDistinct (srmcPair (s.toNat + 4) (s.toNat + 8) (w.toNat + 8) (w.toNat + 12) cleanup) :=
      operandsDistinct_srmcPair (by omega) (by omega) (by omega) (by omega) cleanup
    exact outer.append inner
  | keyexp k w r =>
    have hkw := apart_eq_true.mp h
    have sbox3 : OperandsDistinct (sboxSeq (k.toNat + 12) w.toNat k.toNat) :=
      operandsDistinct_sboxSeq (by omega) (by omega)
    have sbox2 : OperandsDistinct (sboxSeq (k.toNat + 8) w.toNat (k.toNat + 4)) :=
      operandsDistinct_sboxSeq (by omega) (by omega)
    exact (((sbox3.append sbox2).append (operandsDistinct_rconSeq _ r)).append
      (operandsDistinct_cxNibble (by omega))).append (operandsDistinct_cxNibble (by omega))
  | addrk s k layout =>
    have hsk := apart_eq_true.mp h
    refine operandsDistinct_flatMap fun n hn => ?_
    have hn : n < 4 := List.mem_range.mp hn
    have hphys := physicalNibble_lt hn layout
    exact operandsDistinct_cxNibble (by omega)
  | addrkConst s k imm =>
    have hsk := apart_eq_true.mp h
    refine operandsDistinct_flatMap fun j hj => ?_
    have flip : OperandsDistinct [.flip (charReg k.toNat j)] :=
      operandsDistinct_of_no_controls (List.forall_mem_singleton.mpr rfl)
    exact flip.append (operandsDistinct_cx (charReg_ne (by omega) (setChars_lt hj)))
  | loadc b imm => exact operandsDistinct_of_no_controls (List.forall_mem_map.mpr fun _ _ => rfl)

/-- Every primitive of a command that passes its checks is valid (R245): the range check bounds its registers and the
overlap check keeps them distinct. -/
theorem gateValid_of_expand {nreg : Nat} {i : Instr} (h : i.wellFormed nreg = true) {g : Gate} (hg : g ∈ expand i) :
    gateValid nreg g = true := by
  obtain ⟨-, hdisjoint⟩ := wellFormed_iff.mp h
  exact gateValid_eq_true.mpr ⟨operandsIn_expand_of_wellFormed h g hg, operandsDistinct_expand hdisjoint g hg⟩

/-- The registers of an expansion lie in the command's operand regions. -/
theorem operandsIn_expand_regions (i : Instr) :
    OperandsIn (fun j => ∃ r ∈ operandRegions i, r.base ≤ j ∧ j < r.base + r.size) (expand i) :=
  operandsIn_expand fun r hr _ hlo hhi => ⟨r, hr, hlo, hhi⟩

/-- Settles O15: the primitives are valid and stay in the operand regions; below an NREG of at most 256 their registers
fit the operand fields, so as commands they pass the same checks. -/
theorem expansionsNeverFault : Obligations.ExpansionsNeverFault := by
  unfold Obligations.ExpansionsNeverFault
  intro nreg i hi hn g hg
  have hvalid : gateValid nreg g = true := gateValid_of_expand hi hg
  have hfits : fitsFields g := fun j hj => lt_of_lt_of_le (operandsIn_expand_of_wellFormed hi g hg j hj) hn
  exact ⟨hvalid, wellFormed_gateCommand hfits hvalid, operandsIn_expand_regions i g hg⟩

end Sys2Proof.Machine
end

section
/-! Running an expansion backwards (R287): a list of valid primitives without a RESET is undone by its reverse, and a
list with a RESET is not, since a RESET makes two arenas equal. -/

namespace Sys2Proof.Machine

/-! ### Lists without a RESET -/

/-- Primitives on pairwise distinct registers, none of them RESET, are undone from the last to the first. -/
theorem applyGates_reverse {E : List Gate} (hreset : ResetFree E) (hdistinct : OperandsDistinct E) (x : Arena) :
    applyGates E.reverse (applyGates E x) = x := by
  induction E generalizing x with
  | nil => rfl
  | cons g E ih =>
    obtain ⟨hg, hE⟩ := List.forall_mem_cons.mp hreset
    obtain ⟨hgd, hEd⟩ := List.forall_mem_cons.mp hdistinct
    obtain ⟨htarget, -⟩ := List.nodup_cons.mp hgd
    rw [applyGates_cons, List.reverse_cons, applyGates_append, ih hE hEd]
    exact applyGate_applyGate hg htarget x

/-- So every arena is the outcome of such a list: its reverse, which is such a list too, finds the arena before it. -/
theorem applyGates_applyGates_reverse {E : List Gate} (hreset : ResetFree E) (hdistinct : OperandsDistinct E)
    (y : Arena) : applyGates E (applyGates E.reverse y) = y := by
  have hreset' : ResetFree E.reverse := fun g hg => hreset g (List.mem_reverse.mp hg)
  have hdistinct' : OperandsDistinct E.reverse := fun g hg => hdistinct g (List.mem_reverse.mp hg)
  simpa using applyGates_reverse hreset' hdistinct' y

/-! ### Lists with a RESET -/

section
variable {P : List Gate} {t nreg : Nat}

/-- The arena that `P` turns into the all-zero arena with `v` in register `t`. -/
def arenaBefore (P : List Gate) (nreg t : Nat) (v : Bool) : Arena :=
  applyGates P.reverse (writeReg (List.replicate nreg false) t v)

@[simp] theorem length_arenaBefore (v : Bool) : (arenaBefore P nreg t v).length = nreg := by
  simp [arenaBefore]

theorem applyGates_arenaBefore (hreset : ResetFree P) (hdistinct : OperandsDistinct P) (v : Bool) :
    applyGates P (arenaBefore P nreg t v) = writeReg (List.replicate nreg false) t v :=
  applyGates_applyGates_reverse hreset hdistinct _

/-- A RESET of `t` after `P` erases the bit in which two such arenas differ. -/
theorem applyGates_reset_arenaBefore (hreset : ResetFree P) (hdistinct : OperandsDistinct P) (Q : List Gate)
    (v : Bool) : applyGates (P ++ .reset t :: Q) (arenaBefore P nreg t v) =
      applyGates Q (writeReg (List.replicate nreg false) t false) := by
  rw [applyGates_append, applyGates_arenaBefore hreset hdistinct, applyGates_cons, applyGate, writeReg_writeReg]

/-- So one of the two is not restored: the list takes both to one arena, where the reversed list has one outcome. -/
theorem exists_not_restored (hreset : ResetFree P) (hdistinct : OperandsDistinct P) (ht : t < nreg) (Q : List Gate) :
    ∃ x : Arena, x.length = nreg ∧
      applyGates (P ++ .reset t :: Q).reverse (applyGates (P ++ .reset t :: Q) x) ≠ x := by
  by_contra! hrestored
  have htrue := hrestored (arenaBefore P nreg t true) (length_arenaBefore _)
  have hfalse := hrestored (arenaBefore P nreg t false) (length_arenaBefore _)
  rw [applyGates_reset_arenaBefore hreset hdistinct] at htrue hfalse
  have hread (v : Bool) : readReg (applyGates P (arenaBefore P nreg t v)) t = v := by
    rw [applyGates_arenaBefore hreset hdistinct, readReg_writeReg_same (by simpa using ht)]
  have habsurd : true = false := by rw [← hread true, ← hread false, ← htrue, ← hfalse]
  exact Bool.noConfusion habsurd

end

/-- A list that holds a RESET, cut at the first one. -/
theorem exists_first_reset {E : List Gate} {g : Gate} (hg : g ∈ E) (hreset : isReset g = true) :
    ∃ (P Q : List Gate) (t : Nat), E = P ++ .reset t :: Q ∧ ResetFree P := by
  obtain ⟨r, hr⟩ := Option.isSome_iff_exists.mp (List.find?_isSome.mpr ⟨g, hg, hreset⟩)
  obtain ⟨hisReset, P, Q, hE, hP⟩ := List.find?_eq_some_iff_append.mp hr
  cases r with
  | reset t => exact ⟨P, Q, t, hE, fun p hp => by simpa using hP p hp⟩
  | _ => cases hisReset

/-! ### The commands -/

/-- RESET is a RESET, and SUBNIB resets its first state register after the first S-box block (R156). -/
theorem exists_reset_of_not_reversible {i : Instr} (h : reversible i = false) : ∃ g ∈ expand i, isReset g = true := by
  rcases not_reversible h with ⟨t, rfl⟩ | ⟨s, w, o, rfl⟩
  · exact ⟨.reset t.toNat, List.mem_singleton_self _, rfl⟩
  · refine ⟨.reset s.toNat, List.mem_flatMap.mpr ⟨0, by decide, ?_⟩, rfl⟩
    simp [subnibOne, resetNibble]

theorem reversible_eq_false_iff (i : Instr) : reversible i = false ↔ ∃ g ∈ expand i, isReset g = true := by
  refine ⟨exists_reset_of_not_reversible, fun ⟨g, hg, hreset⟩ => Bool.eq_false_iff.mpr fun hrev => ?_⟩
  simp [resetFree_expand hrev g hg] at hreset

/-- Settles O18: the primitives of a well-formed command are valid, so a RESET among them decides between a list that is
undone by its reverse and one that is not. -/
theorem reversibleCommands : Obligations.ReversibleCommands := by
  unfold Obligations.ReversibleCommands
  refine ⟨fun i x hwf hrev => ?_, reversible_eq_false_iff, fun i nreg hwf hrev => ?_⟩
  · obtain ⟨-, hdisjoint⟩ := wellFormed_iff.mp hwf
    exact applyGates_reverse (resetFree_expand hrev) (operandsDistinct_expand hdisjoint) x
  · obtain ⟨g, hg, hreset⟩ := exists_reset_of_not_reversible hrev
    obtain ⟨P, Q, t, hE, hP⟩ := exists_first_reset hg hreset
    have hvalid : ∀ p ∈ P ++ .reset t :: Q, gateValid nreg p = true := fun p hp => gateValid_of_expand hwf (hE ▸ hp)
    have hdistinct : OperandsDistinct P := fun p hp =>
      (gateValid_eq_true.mp (hvalid p (List.mem_append_left _ hp))).2
    have ht : t < nreg :=
      (gateValid_eq_true.mp (hvalid (.reset t) List.mem_append_cons_self)).1 t List.mem_cons_self
    rw [hE]
    exact exists_not_restored hP hdistinct ht Q

end Sys2Proof.Machine
end

section
/-! The gates of every expansion by kind (R288): the counts of two lists put together add up, so each expansion's count
is the sum over the sub-sequences it is made of. -/

namespace Sys2Proof.Machine

/-! ### Counts of lists -/

/-- Two counts added kind by kind. -/
def GateCount.add (m n : GateCount) : GateCount :=
  { cx := m.cx + n.cx, ccx := m.ccx + n.ccx, flip := m.flip + n.flip, reset := m.reset + n.reset }

/-- A count taken `k` times. -/
def GateCount.times (k : Nat) (n : GateCount) : GateCount :=
  { cx := k * n.cx, ccx := k * n.ccx, flip := k * n.flip, reset := k * n.reset }

theorem GateCount.add_comm (m n : GateCount) : m.add n = n.add m := by
  simp [GateCount.add, Nat.add_comm]

@[simp] theorem countGates_append (E F : List Gate) : countGates (E ++ F) = (countGates E).add (countGates F) := by
  induction E with
  | nil => simp [countGates, GateCount.add]
  | cons g E ih => cases g <;> simp [countGates, ih, GateCount.add, Nat.add_right_comm]

/-- A list made of pieces with one and the same count. -/
theorem countGates_flatMap {α : Type} {l : List α} {f : α → List Gate} {n : GateCount}
    (h : ∀ v ∈ l, countGates (f v) = n) : countGates (l.flatMap f) = GateCount.times l.length n := by
  induction l with
  | nil => simp [countGates, GateCount.times]
  | cons v l ih =>
    obtain ⟨hv, hl⟩ := List.forall_mem_cons.mp h
    rw [List.flatMap_cons, countGates_append, hv, ih hl]
    simp [GateCount.add, GateCount.times, Nat.succ_mul, Nat.add_comm]

theorem countGates_map {α : Type} {l : List α} {f : α → Gate} {n : GateCount}
    (h : ∀ v ∈ l, countGates [f v] = n) : countGates (l.map f) = GateCount.times l.length n := by
  rw [List.map_eq_flatMap, countGates_flatMap h]

/-- Uncomputing runs the same gates again, in another order (R151). -/
theorem countGates_uncompute (blocks : List (List Gate)) :
    countGates (uncompute blocks) = countGates blocks.flatten := by
  induction blocks with
  | nil => rfl
  | cons B blocks ih =>
    rw [uncompute_cons, List.flatten_cons, countGates_append, countGates_append, ih, GateCount.add_comm]

/-- Every gate is of one of the four kinds. -/
theorem length_eq_countGates (E : List Gate) :
    E.length = (countGates E).cx + (countGates E).ccx + (countGates E).flip + (countGates E).reset := by
  induction E with
  | nil => rfl
  | cons g E ih => cases g <;> simp only [countGates, List.length_cons] <;> omega

/-! ### Counts of the named sub-sequences -/

section
variable (a b c w o s k t : Nat)

theorem countGates_cxPairs (l : List (Nat × Nat)) : countGates (cxPairs a o l) = ⟨l.length, 0, 0, 0⟩ := by
  rw [cxPairs, countGates_map (n := ⟨1, 0, 0, 0⟩) fun _ _ => rfl]
  simp [GateCount.times]

@[simp] theorem countGates_cxNibble : countGates (cxNibble a o) = ⟨4, 0, 0, 0⟩ := countGates_cxPairs a o _
@[simp] theorem countGates_sqSeq : countGates (sqSeq a o) = ⟨6, 0, 0, 0⟩ := countGates_cxPairs a o _
@[simp] theorem countGates_mul4Seq : countGates (mul4Seq a o) = ⟨6, 0, 0, 0⟩ := countGates_cxPairs a o _
@[simp] theorem countGates_mul2Seq : countGates (mul2Seq a o) = ⟨5, 0, 0, 0⟩ := countGates_cxPairs a o _
@[simp] theorem countGates_mul8Seq : countGates (mul8Seq a o) = ⟨7, 0, 0, 0⟩ := countGates_cxPairs a o _
@[simp] theorem countGates_mulSeq : countGates (mulSeq a b c) = ⟨0, 22, 0, 0⟩ :=
  countGates_map (n := ⟨0, 1, 0, 0⟩) fun _ _ => rfl

@[simp] theorem countGates_resetNibble : countGates (resetNibble t) = ⟨0, 0, 0, 4⟩ := rfl

@[simp] theorem countGates_affSeq : countGates (affSeq a o) = ⟨12, 0, 2, 0⟩ := by
  rw [affSeq, countGates_append, countGates_cxPairs]
  rfl

/-- The chain of GF_INV: three squarings and a product (R128). -/
theorem countGates_invUp : countGates (invUp a w).flatten = ⟨18, 22, 0, 0⟩ := by
  simp [invUp, GateCount.add]

/-- The chain of SBOX has one product more (R152). -/
theorem countGates_sboxUp : countGates (sboxUp a w).flatten = ⟨18, 44, 0, 0⟩ := by
  simp [sboxUp, countGates_invUp, GateCount.add]

@[simp] theorem countGates_invSeq : countGates (invSeq a w o) = ⟨36, 66, 0, 0⟩ := by
  simp [invSeq, countGates_uncompute, countGates_invUp, GateCount.add]

@[simp] theorem countGates_sboxSeq : countGates (sboxSeq a w o) = ⟨48, 88, 2, 0⟩ := by
  simp [sboxSeq, countGates_uncompute, countGates_sboxUp, GateCount.add]

@[simp] theorem countGates_subnibOne : countGates (subnibOne s w o) = ⟨56, 88, 2, 4⟩ := by
  simp [subnibOne, GateCount.add]

@[simp] theorem countGates_srmcMix (top bot t1 t2 : Nat) : countGates (srmcMix top bot t1 t2) = ⟨20, 0, 0, 0⟩ := by
  simp [srmcMix, GateCount.add]

@[simp] theorem countGates_srmcClean (top bot t1 t2 : Nat) :
    countGates (srmcClean top bot t1 t2) = ⟨24, 0, 0, 0⟩ := by
  simp [srmcClean, GateCount.add]

@[simp] theorem countGates_rconSeq_one : countGates (rconSeq k .one) = ⟨0, 0, 1, 0⟩ := rfl
@[simp] theorem countGates_rconSeq_two : countGates (rconSeq k .two) = ⟨0, 0, 2, 0⟩ := rfl

end

/-! ### Commands with an immediate -/

/-- The characters that are '1' are the value bits that are 1, counted from the other end (R223). -/
theorem length_setChars (imm : Block) : (setChars imm).length = popcount imm := by
  have reversed : (List.range 16).map (15 - ·) = (List.range 16).reverse := by decide
  calc (setChars imm).length
      = ((List.range 16).map (15 - ·)).countP imm.getLsbD := by
        rw [setChars, ← List.countP_eq_length_filter, List.countP_map]
        rfl
    _ = popcount imm := by
        rw [reversed, List.countP_reverse, List.countP_eq_length_filter, popcount]

/-! ### The commands -/

/-- Settles O45: the count of each expansion is the sum of the counts of its sub-sequences, and an immediate has one
piece of expansion for each of its bits that are 1. -/
theorem gateCounts : Obligations.GateCounts := by
  unfold Obligations.GateCounts
  refine ⟨fun _ => rfl, fun _ _ => rfl, fun _ _ _ => rfl, fun _ => rfl, fun a o => countGates_sqSeq _ _,
    fun a b c => countGates_mulSeq _ _ _, fun a o => countGates_mul4Seq _ _, fun a w o => countGates_invSeq _ _ _,
    fun c b => countGates_affSeq _ _, fun a w o => countGates_sboxSeq _ _ _, fun s w o => ?subnib,
    fun s w => ?srmcClean, fun s w => ?srmcNoclean, fun k w => ?keyexpOne, fun k w => ?keyexpTwo,
    fun s k l => ?addrk, fun s k imm => ?addrkConst, fun b imm => ?loadc, fun i => length_eq_countGates _⟩
  case subnib => exact countGates_flatMap fun n _ => countGates_subnibOne _ _ _
  case srmcClean => simp [expand, expandSrmc, srmcPair, GateCount.add]
  case srmcNoclean => simp [expand, expandSrmc, srmcPair, GateCount.add]
  case keyexpOne => simp [expand, expandKeyexp, GateCount.add]
  case keyexpTwo => simp [expand, expandKeyexp, GateCount.add]
  case addrk => exact countGates_flatMap fun n _ => countGates_cxNibble _ _
  case addrkConst =>
    rw [expand, expandAddrkConst, countGates_flatMap (n := ⟨1, 0, 1, 0⟩) fun _ _ => rfl, length_setChars]
    simp [GateCount.times]
  case loadc =>
    rw [expand, expandLoadc, countGates_map (n := ⟨0, 0, 1, 0⟩) fun _ _ => rfl, length_setChars]
    simp [GateCount.times]

end Sys2Proof.Machine
end

section
/-! What a step does, and what decides it (R32, R241, R243, R244): a step takes one fault for the word it fetched or
runs one whole command, and which of the two it is depends on NREG, the command index, the fault record and the command
list alone. -/

namespace Sys2Proof.Machine

/-! ### Everything a step can do -/

/-- A step with a next state takes a fault for the fetched word, or completes the well-formed command it decodes to. -/
theorem step_inversion {s t : State} (h : step s = .next t) :
    s.fr.valid = false ∧ ∃ w, fetch s = some w ∧
      ((∃ code : FaultCode, t = takeFault code w s) ∨
        ∃ i, decode w = .ok i ∧ i.wellFormed s.nreg = true ∧ t = afterCommand i (applyGates (expand i) s.x) s) := by
  obtain ⟨hready, w, hfetch, ⟨e, -, rfl⟩ | ⟨i, hdecode, hexec⟩⟩ := step_cases h
  · exact ⟨hready, w, hfetch, .inl ⟨_, rfl⟩⟩
  · refine ⟨hready, w, hfetch, ?_⟩
    rcases exec_cases hexec with ⟨code, rfl⟩ | ⟨hwf, rfl⟩
    · exact .inl ⟨code, by rw [encode_of_decode hdecode]⟩
    · exact .inr ⟨i, hdecode, hwf, rfl⟩

/-- A word is fetched only below the end of the command list. -/
theorem lt_length_of_fetch {s : State} {w : Word} (h : fetch s = some w) : s.ci < s.cmds.length :=
  (List.getElem?_eq_some_iff.mp h).1

theorem nreg_afterCommand_applyGates (i : Instr) (E : List Gate) (s : State) :
    (afterCommand i (applyGates E s.x) s).nreg = s.nreg := length_applyGates E s.x

/-! ### What decides a step -/

/-- What one step does to a state: it takes a fault, or it runs a command. -/
inductive Action where
  | fault (code : FaultCode) (w : Word)
  | command (i : Instr)

/-- The state after an action. -/
def Action.apply : Action → State → State
  | .fault code w, s => takeFault code w s
  | .command i, s => afterCommand i (applyGates (expand i) s.x) s

/-- The two states differ at most in the arena contents and the log: NREG, the command index, the fault record and the
command list are the same. -/
structure SameControl (s u : State) : Prop where
  nreg_eq : u.nreg = s.nreg
  ci_eq : u.ci = s.ci
  fr_eq : u.fr = s.fr
  cmds_eq : u.cmds = s.cmds

theorem fetch_of_sameControl {s u : State} (h : SameControl s u) : fetch u = fetch s := by
  rw [fetch, fetch, h.cmds_eq, h.ci_eq]

/-- A command takes the same action from every state that agrees on the control part, because its checks read NREG
alone (R244). -/
theorem exec_action {i : Instr} {s t : State} (h : exec i s = .next t) :
    ∃ a : Action, t = a.apply s ∧ ∀ u, SameControl s u → exec i u = .next (a.apply u) := by
  rw [exec_eq_runCommand] at h
  rcases runCommand_cases h with ⟨code, hcheck, rfl⟩ | ⟨hcheck, rfl⟩
  · refine ⟨.fault code (encode i), rfl, fun u hu => ?_⟩
    rw [exec_eq_runCommand, runCommand, hu.nreg_eq, hcheck]
    rfl
  · refine ⟨.command i, rfl, fun u hu => ?_⟩
    rw [exec_eq_runCommand, runCommand_of_check (hu.nreg_eq ▸ hcheck)]
    rfl

/-- So does a step. -/
theorem step_action {s t : State} (h : step s = .next t) :
    ∃ a : Action, t = a.apply s ∧ ∀ u, SameControl s u → step u = .next (a.apply u) := by
  obtain ⟨hready, w, hfetch, ⟨e, hdecode, rfl⟩ | ⟨i, hdecode, hexec⟩⟩ := step_cases h
  · refine ⟨.fault (decodeFault e) w, rfl, fun u hu => ?_⟩
    exact step_of_decode_error (hu.fr_eq ▸ hready) (fetch_of_sameControl hu ▸ hfetch) hdecode
  · obtain ⟨a, ha, hsame⟩ := exec_action hexec
    refine ⟨a, ha, fun u hu => ?_⟩
    rw [step_of_decode_ok (hu.fr_eq ▸ hready) (fetch_of_sameControl hu ▸ hfetch) hdecode, hsame u hu]

/-- The words an action appends to the log. -/
def Action.logged : Action → List Word
  | .fault _ _ => []
  | .command i => (expand i).map gateWord

theorem Action.gl_apply (a : Action) (s : State) : (a.apply s).gl = s.gl ++ a.logged := by
  cases a with
  | fault code w => exact (List.append_nil s.gl).symm
  | command i => rfl

/-- With another log in its place, an action leaves everything else as it was and appends the same words. -/
theorem Action.apply_withLog (a : Action) (s : State) (gl : List Word) :
    a.apply { s with gl := gl } = { a.apply s with gl := gl ++ a.logged } := by
  cases a with
  | fault code w =>
    rw [Action.logged, List.append_nil]
    rfl
  | command i => rfl

/-- With another arena in its place, an action changes everything but the arena as before. -/
theorem Action.apply_withArena (a : Action) (s : State) (x : Arena) :
    a.apply { s with x := x } = { a.apply s with x := (a.apply { s with x := x }).x } := by
  cases a <;> rfl

/-! ### The invariant -/

theorem legalNReg_eq_true {n : Nat} : Config.legalNReg n = true ↔ 1 ≤ n ∧ n ≤ Config.maxNReg := by
  simp [Config.legalNReg]

theorem faultRecordLegal_of_valid {s : State} (hvalid : s.fr.valid = true) :
    faultRecordLegal s = true ↔
      s.fr.code ∈ [0x01#8, 0x02#8, 0x03#8, 0x04#8] ∧ s.fr.ci = s.ci ∧ fetch s = some s.fr.word := by
  simp only [faultRecordLegal, hvalid, if_true, Bool.and_eq_true, decide_eq_true_eq, and_assoc]

theorem faultRecordLegal_of_not_valid {s : State} (hready : s.fr.valid = false) :
    faultRecordLegal s = true ↔ s.fr = FaultRecord.clear := by
  simp [faultRecordLegal, hready]

theorem faultCode_byte_mem (code : FaultCode) : code.byte ∈ [0x01#8, 0x02#8, 0x03#8, 0x04#8] := by
  cases code <;> decide

/-- A fault for the fetched word writes a legal fault record and touches nothing else of the invariant. -/
theorem sound_takeFault {s : State} {w : Word} (h : Sound s) (hfetch : fetch s = some w) (code : FaultCode) :
    Sound (takeFault code w s) := by
  obtain ⟨hnreg, hci, -, hlog, harena⟩ := h
  have hrecord : faultRecordLegal (takeFault code w s) = true :=
    (faultRecordLegal_of_valid rfl).mpr ⟨faultCode_byte_mem code, rfl, hfetch⟩
  exact ⟨hnreg, hci, hrecord, hlog, harena⟩

/-- The log after a well-formed command holds its primitives as well, which are valid (R245). -/
theorem logLegal_afterCommand {i : Instr} {s : State} (hlegal : s.nreg ≤ Config.maxNReg) (hlog : logLegal s = true)
    (hwf : i.wellFormed s.nreg = true) : logLegal (afterCommand i (applyGates (expand i) s.x) s) = true := by
  have expanded : ∀ w ∈ (expand i).map gateWord, logWord s.nreg w := by
    intro w hw
    obtain ⟨g, hg, rfl⟩ := List.mem_map.mp hw
    exact ⟨g, gateOfWord_of_expand hwf hlegal hg, gateValid_of_expand hwf hg⟩
  rw [logLegal_eq_true, nreg_afterCommand_applyGates, afterCommand_gl, List.forall_mem_append]
  exact ⟨logLegal_eq_true.mp hlog, expanded⟩

/-- Settles O3: a fault changes the fault record alone, to a legal one; a command is fetched below the end of the list,
logs valid primitives and applies exactly those to the arena. -/
theorem stepKeepsInvariant : Obligations.StepKeepsInvariant := by
  unfold Obligations.StepKeepsInvariant
  intro s t hsound hstep
  obtain ⟨hready, w, hfetch, ⟨code, rfl⟩ | ⟨i, -, hwf, rfl⟩⟩ := step_inversion hstep
  · exact sound_takeFault hsound hfetch code
  · obtain ⟨hnreg, -, hrecord, hlog, harena⟩ := hsound
    have hmax : s.nreg ≤ Config.maxNReg := (legalNReg_eq_true.mp hnreg).2
    have hreplays : ReplaysFrom s.nreg s := ⟨rfl, of_decide_eq_true harena⟩
    obtain ⟨hnreg', hreplay⟩ := replaysFrom_step hmax s _ hreplays hstep
    refine ⟨?_, lt_length_of_fetch hfetch, ?_, logLegal_afterCommand hmax hlog hwf, ?_⟩
    · rwa [hnreg']
    · have hclear : s.fr = FaultRecord.clear := (faultRecordLegal_of_not_valid hready).mp hrecord
      exact (faultRecordLegal_of_not_valid (by rwa [afterCommand_fr])).mpr hclear
    · rw [arenaReplays, hnreg']
      exact decide_eq_true hreplay

/-- A boot state has an empty log, an all-zero arena and no fault recorded. -/
theorem sound_boot {nreg : Nat} (hlegal : Config.legalNReg nreg = true) (cmds : List Word) :
    Sound (State.boot nreg cmds) := by
  have hreplays : arenaReplays (State.boot nreg cmds) = true := by
    rw [arenaReplays, boot_nreg, boot_gl, boot_x, replayLog_nil, decide_eq_true rfl]
  exact ⟨by rwa [boot_nreg], Nat.zero_le _, rfl, rfl, hreplays⟩

/-- Settles O2: `State.reset` is the boot state with 68 registers and no command. -/
theorem invariantAtReset : Obligations.InvariantAtReset := by
  unfold Obligations.InvariantAtReset
  exact ⟨sound_boot (by decide) [], fun _ cmds hlegal => sound_boot hlegal cmds⟩

/-! ### The statements on steps -/

/-- Settles O6: the checks run in the order of R244, and past them the whole expansion is emitted. -/
theorem operandChecksDecide : Obligations.OperandChecksDecide := by
  unfold Obligations.OperandChecksDecide
  exact fun _ _ => ⟨exec_of_not_inRange, exec_of_overlap, exec_of_wellFormed⟩

/-- Settles O9: the two answers of `step_inversion`, neither of which touches the command list or the length of the
arena. -/
theorem stepIsWholeCommandOrFault : Obligations.StepIsWholeCommandOrFault := by
  unfold Obligations.StepIsWholeCommandOrFault
  intro s t hstep
  obtain ⟨-, w, hfetch, ⟨code, rfl⟩ | ⟨i, hdecode, hwf, rfl⟩⟩ := step_inversion hstep
  · exact ⟨⟨w, hfetch, .inl ⟨code.byte, faultCode_byte_mem code, rfl⟩⟩, rfl, rfl⟩
  · exact ⟨⟨w, hfetch, .inr ⟨i, hdecode, hwf, rfl⟩⟩, rfl, nreg_afterCommand_applyGates i _ s⟩

/-- Settles O21: a step is an action that the log does not decide. -/
theorem logIsWriteOnly : Obligations.LogIsWriteOnly := by
  unfold Obligations.LogIsWriteOnly
  intro s t hstep
  obtain ⟨a, rfl, hsame⟩ := step_action hstep
  refine ⟨a.logged, a.gl_apply s, fun gl => ?_⟩
  rw [hsame { s with gl := gl } ⟨rfl, rfl, rfl, rfl⟩, a.apply_withLog]

/-- Settles O22: a step is an action that the contents of the registers do not decide, only their number. -/
theorem logIsDataIndependent : Obligations.LogIsDataIndependent := by
  unfold Obligations.LogIsDataIndependent
  intro s t x hstep hlength
  obtain ⟨a, rfl, hsame⟩ := step_action hstep
  refine ⟨(a.apply { s with x := x }).x, ?_⟩
  rw [hsame { s with x := x } ⟨hlength, rfl, rfl, rfl⟩, ← a.apply_withArena]

/-- Settles O4: the fetched word decodes, so the step is its command. -/
theorem stepRunsDecodedCommand : Obligations.StepRunsDecodedCommand := by
  unfold Obligations.StepRunsDecodedCommand
  exact fun _ _ _ hready hfetch hdecode => step_of_decode_ok hready hfetch hdecode

/-! ### The end of a run -/

theorem step_of_exhausted {s : State} (hready : s.fr.valid = false) (hend : s.cmds.length ≤ s.ci) :
    step s = .fault .runCompleted := by
  have hfetch : fetch s = none := List.getElem?_eq_none hend
  simp [step, hready, hfetch]

/-- A command always has a next state: the fault entry or the completed command. -/
theorem exists_exec (i : Instr) (s : State) : ∃ t, exec i s = .next t := by
  rw [exec_eq_runCommand, runCommand]
  cases checkOperands s.nreg (operandRegions i) with
  | none => exact ⟨_, rfl⟩
  | some code => exact ⟨_, rfl⟩

theorem exists_step {s : State} (hready : s.fr.valid = false) (hci : s.ci < s.cmds.length) :
    ∃ t, step s = .next t := by
  have hfetch : fetch s = some s.cmds[s.ci] := List.getElem?_eq_getElem hci
  cases hdecode : decode s.cmds[s.ci] with
  | error e => exact ⟨_, step_of_decode_error hready hfetch hdecode⟩
  | ok i =>
    rw [step_of_decode_ok hready hfetch hdecode]
    exact exists_exec i s

/-- Settles O8: a recorded fault, an exhausted list and a word left to fetch are the three cases, with one answer of the
step for each. -/
theorem runEnds : Obligations.RunEnds := by
  unfold Obligations.RunEnds
  intro s
  cases hvalid : s.fr.valid with
  | true => simp [step_of_faulted hvalid]
  | false =>
    rcases Nat.lt_or_ge s.ci s.cmds.length with hci | hend
    · obtain ⟨t, hstep⟩ := exists_step hvalid hci
      simp [hstep, hci]
    · simp [step_of_exhausted hvalid hend, hend]

/-! ### Encoding -/

/-- Settles O12: the fields of a command's word name its opcode and its operands, and every other field is zero. -/
theorem decodeOfEncode : Obligations.DecodeOfEncode := by
  unfold Obligations.DecodeOfEncode
  exact decode_encode

/-- Settles O13: a word that decodes holds nothing but the opcode and the operands of its command. -/
theorem encodeOfDecode : Obligations.EncodeOfDecode := by
  unfold Obligations.EncodeOfDecode
  exact fun _ _ hdecode => encode_of_decode hdecode

/-! ### Operands -/

/-- Settles O7: where neither region ends before the other begins, the larger of the two bases lies in both. -/
theorem overlapMeansSharedRegister : Obligations.OverlapMeansSharedRegister := by
  unfold Obligations.OverlapMeansSharedRegister
  refine ⟨fun a b m n hm hn => ?_, fun c t => disjoint_cx, fun c1 c2 t => disjoint_ccx⟩
  rw [apart_eq_true]
  constructor
  · rintro hapart ⟨j, hja, hjb⟩
    omega
  · intro hnone
    by_contra hshared
    exact hnone ⟨max a.toNat b.toNat, by omega, by omega⟩

/-- A command changes no register outside its operand regions, because its primitives name none there (R41). -/
theorem readReg_applyGates_expand_other {i : Instr} {j : Nat}
    (hj : ∀ r ∈ operandRegions i, ¬(r.base ≤ j ∧ j < r.base + r.size)) (x : Arena) :
    readReg (applyGates (expand i) x) j = readReg x j := by
  refine readReg_applyGates_other (fun g hg htarget => ?_) x
  obtain ⟨r, hr, hin⟩ := operandsIn_expand_regions i g hg _ List.mem_cons_self
  exact hj r hr (htarget ▸ hin)

/-- Settles O23: a fault leaves the arena alone, and the primitives of an expansion stay in the operand regions. -/
theorem onlyOperandRegionsChange : Obligations.OnlyOperandRegionsChange := by
  unfold Obligations.OnlyOperandRegionsChange
  intro i s t hexec
  rcases exec_cases hexec with ⟨code, rfl⟩ | ⟨-, rfl⟩
  · exact ⟨rfl, fun _ _ => rfl⟩
  · rw [afterCommand_x]
    exact ⟨length_applyGates _ _, fun j hj => readReg_applyGates_expand_other hj s.x⟩

end Sys2Proof.Machine
end

section
/-! The laws of the primitives (R105): what a primitive does to each register, said once for all four, gives that two
primitives neither of which writes a control of the other commute. -/

namespace Sys2Proof.Machine

theorem gateBit_of_isReset {g : Gate} (h : isReset g = true) (x : Arena) : gateBit g x = false := by
  cases g with
  | reset t => rfl
  | _ => cases h

/-- What a primitive leaves in its target: RESET forgets the register, the others keep it and add their bit. -/
theorem readReg_applyGate_eq (g : Gate) {x : Arena} {j : Nat} (hj : j < x.length) :
    readReg (applyGate g x) j =
      if gateTarget g = j then ((!isReset g && readReg x j) ^^ gateBit g x) else readReg x j := by
  by_cases htarget : gateTarget g = j
  · cases hreset : isReset g with
    | false => simp [readReg_applyGate hreset hj, htarget]
    | true =>
      rw [if_pos htarget, gateBit_of_isReset hreset]
      cases g with
      | reset t =>
        obtain rfl : t = j := htarget
        exact readReg_writeReg_same hj false
      | _ => cases hreset
  · rw [readReg_applyGate_other htarget, if_neg htarget]

/-- Two primitives whose targets are no controls of each other commute: on one shared target both are RESET, or both add
a bit that the other does not change (R105, log entry 16). -/
theorem applyGate_comm {g h : Gate} (hgh : gateTarget g ∉ gateControls h) (hhg : gateTarget h ∉ gateControls g)
    (hshared : gateTarget g ≠ gateTarget h ∨ isReset g = isReset h) (x : Arena) :
    applyGate g (applyGate h x) = applyGate h (applyGate g x) := by
  refine arena_ext (by simp) fun j hj => ?_
  have hx : j < x.length := by simpa using hj
  have after (a b : Gate) (hab : gateTarget b ∉ gateControls a) :
      readReg (applyGate a (applyGate b x)) j =
        if gateTarget a = j then ((!isReset a && readReg (applyGate b x) j) ^^ gateBit a x)
        else readReg (applyGate b x) j := by
    rw [readReg_applyGate_eq a (by simpa), gateBit_applyGate hab]
  rw [after g h hhg, after h g hgh, readReg_applyGate_eq g hx, readReg_applyGate_eq h hx]
  by_cases hg : gateTarget g = j
  · by_cases hh : gateTarget h = j
    · have hsame : isReset g = isReset h := hshared.resolve_left fun hne => hne (hg.trans hh.symm)
      cases hreset : isReset h with
      | false => simp [hg, hh, hsame, hreset, Bool.xor_comm (gateBit h x)]
      | true => simp [hg, hh, hsame, hreset, gateBit_of_isReset]
    · simp [hg, hh]
  · simp [hg]

/-- Settles O16: a valid primitive's target is none of its controls, so it undoes itself, and a list of such primitives
is undone from the last to the first. -/
theorem primitiveLaws : Obligations.PrimitiveLaws := by
  unfold Obligations.PrimitiveLaws
  refine ⟨fun g x hvalid hreset => ?_, fun E x hE => ?_, fun g h x _ _ hgh hhg hshared => ?_⟩
  · obtain ⟨-, hdistinct⟩ := gateValid_eq_true.mp hvalid
    exact applyGate_applyGate hreset (List.nodup_cons.mp hdistinct).1 x
  · have hresets : ResetFree E := fun g hg => (hE g hg).2
    have hdistinct : OperandsDistinct E := fun g hg => (gateValid_eq_true.mp (hE g hg).1).2
    rw [applyGates_append, applyGates_reverse hresets hdistinct]
  · exact applyGate_comm hgh hhg hshared x

end Sys2Proof.Machine
end

section
/-! The commands that add one value to one nibble (R123, R126, R129, R142, R152, R173): the sub-sequence lemmas name the
value, and around the chain of GF_INV and SBOX the uncompute restores the workspace, whatever it holds. -/

namespace Sys2Proof.Machine

/-! ### Commands that pass their checks -/

section
variable {nreg m n l : Nat} {a b c : RegIx}

/-- The checks of a command with two operand regions. -/
theorem twoRegions_pass :
    (fits nreg a m && fits nreg b n && apart a m b n) = true ↔
      (a.toNat + m ≤ nreg ∧ b.toNat + n ≤ nreg) ∧ (a.toNat + m ≤ b.toNat ∨ b.toNat + n ≤ a.toNat) := by
  simp only [fits, Bool.and_eq_true, decide_eq_true_eq, apart_eq_true]

/-- The checks of a command with three operand regions. -/
theorem threeRegions_pass :
    (fits nreg a m && fits nreg b n && fits nreg c l && apart3 a m b n c l) = true ↔
      (a.toNat + m ≤ nreg ∧ b.toNat + n ≤ nreg ∧ c.toNat + l ≤ nreg) ∧
        (a.toNat + m ≤ b.toNat ∨ b.toNat + n ≤ a.toNat) ∧ (a.toNat + m ≤ c.toNat ∨ c.toNat + l ≤ a.toNat) ∧
        (b.toNat + n ≤ c.toNat ∨ c.toNat + l ≤ b.toNat) := by
  simp only [fits, Bool.and_eq_true, decide_eq_true_eq, apart3_eq_true, and_assoc]

end

/-- A well-formed command completes with whatever arena its expansion makes. -/
theorem exec_of_arena {i : Instr} {s : State} {y : Arena} (hwf : i.wellFormed s.nreg = true)
    (hy : applyGates (expand i) s.x = y) : exec i s = .next (afterCommand i y s) := by
  rw [exec_of_wellFormed hwf, hy]

/-! ### Commands that are one sub-sequence -/

/-- Settles O28: the expansion is SQ, on two nibbles that share no register. -/
theorem gfSqResult : Obligations.GfSqResult := by
  unfold Obligations.GfSqResult
  intro a o s hwf
  obtain ⟨⟨-, ho⟩, hao⟩ := twoRegions_pass.mp hwf
  exact exec_of_arena hwf (applyGates_sqSeq ho hao)

/-- Settles O29: the expansion is MULSEQ, whose target nibble shares no register with the two factors. -/
theorem gfMulResult : Obligations.GfMulResult := by
  unfold Obligations.GfMulResult
  intro a b c s hwf
  obtain ⟨⟨-, -, hc⟩, -, hac, hbc⟩ := threeRegions_pass.mp hwf
  exact exec_of_arena hwf (applyGates_mulSeq hc hac hbc)

/-- Settles O30: the expansion is MUL4SEQ, on two nibbles that share no register. -/
theorem gfMul4Result : Obligations.GfMul4Result := by
  unfold Obligations.GfMul4Result
  intro a o s hwf
  obtain ⟨⟨-, ho⟩, hao⟩ := twoRegions_pass.mp hwf
  exact exec_of_arena hwf (applyGates_mul4Seq ho hao)

/-- Settles O31: the expansion is AFFSEQ, on two nibbles that share no register. -/
theorem affineResult : Obligations.AffineResult := by
  unfold Obligations.AffineResult
  intro c b s hwf
  obtain ⟨⟨-, hb⟩, hcb⟩ := twoRegions_pass.mp hwf
  exact exec_of_arena hwf (applyGates_affSeq hb hcb)

/-! ### Compute, use, uncompute -/

/-- A chain of blocks that names no register of the nibble o, run before an XOR into o and uncomputed after it, leaves
only that XOR behind (R151). -/
theorem applyGates_use_uncompute {blocks : List (List Gate)} {E : List Gate} {x : Arena} {o : Nat} {v : Nibble}
    (hblocks : ∀ B ∈ blocks, XorBlock B)
    (havoid : ∀ B ∈ blocks, OperandsIn (fun j => ¬(o ≤ j ∧ j < o + 4)) B)
    (huse : applyGates E (applyGates blocks.flatten x) = xorNib (applyGates blocks.flatten x) o v) :
    applyGates (blocks.flatten ++ E ++ uncompute blocks) x = xorNib x o v := by
  rw [applyGates_append, applyGates_append, huse, applyGates_xorNib (operandsIn_uncompute havoid),
    applyGates_uncompute hblocks]

/-! ### The chain of GF_INV and SBOX on any workspace -/

section
variable (x : Arena) (a w : Nat)

/-- What UP leaves in the workspace nibble w: a^2 on top of what it held (R128, R129). -/
def chain0 : Nibble := nib x w ^^^ gsq (nib x a)
/-- What UP leaves in the workspace nibble w + 4. -/
def chain1 : Nibble := nib x (w + 4) ^^^ gsq (chain0 x a w)
/-- What UP leaves in the workspace nibble w + 8. -/
def chain2 : Nibble := nib x (w + 8) ^^^ gsq (chain1 x a w)
/-- What UP leaves in the workspace nibble w + 12. -/
def chain3 : Nibble := nib x (w + 12) ^^^ gmul (chain2 x a w) (chain1 x a w)
/-- What UP5 leaves in the workspace nibble w + 16 (R152, R153). -/
def chain4 : Nibble := nib x (w + 16) ^^^ gmul (chain3 x a w) (chain0 x a w)

end

section
variable {x : Arena} {a w o : Nat}

theorem xorBlock_invUp (haw : a + 4 ≤ w ∨ w + 16 ≤ a) : ∀ B ∈ invUp a w, XorBlock B := by
  simp only [invUp, List.forall_mem_cons]
  exact ⟨xorBlock_sqSeq (by omega), xorBlock_sqSeq (by omega), xorBlock_sqSeq (by omega),
    xorBlock_mulSeq (by omega) (by omega), fun _ h => absurd h List.not_mem_nil⟩

/-- The two nibbles of UP that are read after it. -/
theorem nib_invUp (hw : w + 16 ≤ x.length) (haw : a + 4 ≤ w ∨ w + 16 ≤ a) :
    nib (applyGates (invUp a w).flatten x) w = chain0 x a w ∧
      nib (applyGates (invUp a w).flatten x) (w + 12) = chain3 x a w := by
  have chain : applyGates (invUp a w).flatten x =
      applyGates (mulSeq (w + 8) (w + 4) (w + 12)) (applyGates (sqSeq (w + 4) (w + 8))
        (applyGates (sqSeq w (w + 4)) (applyGates (sqSeq a w) x))) := by
    simp [invUp, applyGates_append]
  rw [chain, applyGates_sqSeq (a := a) (by omega) (by omega), applyGates_sqSeq (a := w) (by simp; omega) (by omega),
    applyGates_sqSeq (a := w + 4) (by simp; omega) (by omega), applyGates_mulSeq (by simp; omega) (by omega) (by omega)]
  simp (disch := (try simp only [length_xorNib]); omega) only [nib_xorNib_same, nib_xorNib_other]
  exact ⟨rfl, rfl⟩

theorem nib_sboxUp (hw : w + 20 ≤ x.length) (haw : a + 4 ≤ w ∨ w + 20 ≤ a) :
    nib (applyGates (sboxUp a w).flatten x) (w + 16) = chain4 x a w := by
  obtain ⟨h0, h3⟩ := nib_invUp (x := x) (a := a) (w := w) (by omega) (by omega)
  have last_untouched : nib (applyGates (invUp a w).flatten x) (w + 16) = nib x (w + 16) :=
    nib_applyGates_other (operandsIn_flatten (operandsIn_invUp (fun j _ _ => by omega) (fun j _ _ => by omega))) x
  have chain : (sboxUp a w).flatten = (invUp a w).flatten ++ mulSeq (w + 12) w (w + 16) := by simp [sboxUp]
  rw [chain, applyGates_append, applyGates_mulSeq (by simpa) (by omega) (by omega), nib_xorNib_same (by simpa), h0, h3,
    last_untouched, chain4]

/-- The expansion of GF_INV on any workspace: one XOR into o (R129). -/
theorem applyGates_invSeq (hw : w + 16 ≤ x.length) (ho : o + 4 ≤ x.length) (haw : a + 4 ≤ w ∨ w + 16 ≤ a)
    (hao : a + 4 ≤ o ∨ o + 4 ≤ a) (hwo : w + 16 ≤ o ∨ o + 4 ≤ w) :
    applyGates (invSeq a w o) x = xorNib x o (gmul (chain3 x a w) (chain0 x a w)) := by
  obtain ⟨h0, h3⟩ := nib_invUp hw haw
  refine applyGates_use_uncompute (xorBlock_invUp haw)
    (operandsIn_invUp (fun j _ _ => by omega) (fun j _ _ => by omega)) ?_
  rw [applyGates_mulSeq (by simpa) (by omega) (by omega), h0, h3]

/-- SBOXSEQ on any workspace: one XOR into o (R152). -/
theorem applyGates_sboxSeq (hw : w + 20 ≤ x.length) (ho : o + 4 ≤ x.length) (haw : a + 4 ≤ w ∨ w + 20 ≤ a)
    (hao : a + 4 ≤ o ∨ o + 4 ≤ a) (hwo : w + 20 ≤ o ∨ o + 4 ≤ w) :
    applyGates (sboxSeq a w o) x = xorNib x o (aff (chain4 x a w)) := by
  refine applyGates_use_uncompute (xorBlock_sboxUp haw)
    (operandsIn_sboxUp (fun j _ _ => by omega) (fun j _ _ => by omega)) ?_
  rw [applyGates_affSeq (by simpa) (by omega), nib_sboxUp hw haw]

/-- The four nibbles of a clean block. -/
theorem nibs_of_clean {b : Nat} (hclean : clean x b 16 = true) :
    nib x b = 0 ∧ nib x (b + 4) = 0 ∧ nib x (b + 8) = 0 ∧ nib x (b + 12) = 0 :=
  ⟨nib_of_clean (k := 0) hclean (by decide), nib_of_clean hclean (by decide), nib_of_clean hclean (by decide),
    nib_of_clean hclean (by decide)⟩

/-- With the workspace clean the product of the last step is the inverse (R127). -/
theorem gmul_chain_of_clean (hclean : clean x w 16 = true) :
    gmul (chain3 x a w) (chain0 x a w) = ginv (nib x a) := by
  obtain ⟨h0, h1, h2, h3⟩ := nibs_of_clean hclean
  simp only [chain0, chain1, chain2, chain3, h0, h1, h2, h3, BitVec.ofNat_eq_ofNat, BitVec.zero_xor]
  rfl

end

/-- Settles O32: the expansion computes the chain, multiplies two of its nibbles into o and uncomputes the chain; with a
clean workspace the product is the inverse. -/
theorem gfInvResult : Obligations.GfInvResult := by
  unfold Obligations.GfInvResult
  intro a w o s hwf
  obtain ⟨⟨-, hw, ho⟩, haw, hao, hwo⟩ := threeRegions_pass.mp hwf
  have hany := exec_of_arena hwf (applyGates_invSeq hw ho haw hao hwo)
  exact ⟨hany, fun hclean => by rw [hany, gmul_chain_of_clean hclean]⟩

/-- Settles O33: as for GF_INV, with the affine map of the last nibble of the chain added to o; with a clean workspace
the result is the one of `applyGates_sboxSeq_of_clean`. -/
theorem sboxResult : Obligations.SboxResult := by
  unfold Obligations.SboxResult
  intro a w o s hwf
  obtain ⟨⟨-, hw, ho⟩, haw, hao, hwo⟩ := threeRegions_pass.mp hwf
  exact ⟨exec_of_arena hwf (applyGates_sboxSeq hw ho haw hao hwo), fun hclean =>
    exec_of_arena hwf (applyGates_sboxSeq_of_clean hw ho haw hao hwo hclean)⟩

end Sys2Proof.Machine
end

section
/-! SUBNIB (R156) and KEYEXP (R191) with a clean workspace: one nibble of SUBNIB overwrites the state nibble and clears
the output nibble, and the four nibbles are done one after another. -/

namespace Sys2Proof.Machine

/-! ### Nibbles written twice -/

section
variable {x : Arena} {b c : Nat}

theorem setNib_setNib (hb : b + 4 ≤ x.length) (u v : Nibble) : setNib (setNib x b u) b v = setNib x b v := by
  refine arena_ext (by simp) fun j _ => ?_
  rw [readReg_setNib (by simpa), readReg_setNib hb, readReg_setNib hb]
  split <;> rfl

theorem setNib_comm (hb : b + 4 ≤ x.length) (hc : c + 4 ≤ x.length) (h : b + 4 ≤ c ∨ c + 4 ≤ b) (u v : Nibble) :
    setNib (setNib x b u) c v = setNib (setNib x c v) b u := by
  refine arena_ext (by simp) fun j _ => ?_
  rw [readReg_setNib (by simpa), readReg_setNib hb, readReg_setNib (by simpa), readReg_setNib hc]
  by_cases hjb : b ≤ j ∧ j < b + 4
  · have hjc : ¬(c ≤ j ∧ j < c + 4) := by omega
    simp only [if_pos hjb, if_neg hjc]
  · simp only [if_neg hjb]

theorem readReg_setNib_other (hb : b + 4 ≤ x.length) {j : Nat} (h : j < b ∨ b + 4 ≤ j) (v : Nibble) :
    readReg (setNib x b v) j = readReg x j := by
  rw [readReg_setNib hb, if_neg (by omega)]

end

/-! ### One nibble of SUBNIB -/

/-- With the workspace clean, one round of SUBNIB leaves S(nib(si)) ^ nib(oi) in the state nibble and zero in the output
nibble: the XOR back into the cleared state nibble copies the output nibble, and the last XOR clears it. -/
theorem applyGates_subnibOne {x : Arena} {si w oi : Nat} (hsi : si + 4 ≤ x.length) (hw : w + 20 ≤ x.length)
    (hoi : oi + 4 ≤ x.length) (hsw : si + 4 ≤ w ∨ w + 20 ≤ si) (hso : si + 4 ≤ oi ∨ oi + 4 ≤ si)
    (hwo : w + 20 ≤ oi ∨ oi + 4 ≤ w) (hclean : clean x w 20 = true) :
    applyGates (subnibOne si w oi) x = setNib (setNib x si (nib x oi ^^^ sboxVal (nib x si))) oi 0 := by
  rw [subnibOne, applyGates_append, applyGates_append, applyGates_append,
    applyGates_sboxSeq_of_clean hw hoi hsw hso hwo hclean, applyGates_resetNibble,
    applyGates_cxNibble (by simpa) (by omega), applyGates_cxNibble (by simpa) (by omega)]
  generalize hv : sboxVal (nib x si) = v
  have copied : xorNib (setNib (xorNib x oi v) si 0) si (nib (setNib (xorNib x oi v) si 0) oi) =
      setNib (setNib x oi (nib x oi ^^^ v)) si (nib x oi ^^^ v) := by
    rw [nib_setNib_other (by simpa) (by omega), nib_xorNib_same hoi, xorNib, nib_setNib_same (by simpa),
      setNib_setNib (by simpa), BitVec.ofNat_eq_ofNat, BitVec.zero_xor, xorNib]
  rw [copied, xorNib, nib_setNib_same (by simpa), nib_setNib_other (by simpa) (by omega), nib_setNib_same hoi,
    BitVec.xor_self, setNib_comm (by simpa) (by simpa) (by omega), setNib_setNib hoi,
    setNib_comm hoi hsi (by omega)]
  rfl

/-! ### The four nibbles of SUBNIB -/

/-- The part of SUBNIB's expansion that does the first `m` nibbles. -/
def subnibUpTo (s w o m : Nat) : List Gate := (List.range m).flatMap fun n => subnibOne (s + 4 * n) w (o + 4 * n)

theorem expand_subnib (s w o : RegIx) : expand (.subnib s w o) = subnibUpTo s.toNat w.toNat o.toNat 4 := rfl

theorem subnibUpTo_succ (s w o m : Nat) :
    subnibUpTo s w o (m + 1) = subnibUpTo s w o m ++ subnibOne (s + 4 * m) w (o + 4 * m) := by
  simp [subnibUpTo, List.range_succ]

/-- `y` is `x` with the first `m` nibbles of the stage done. -/
structure SubnibDone (x : Arena) (s o m : Nat) (y : Arena) : Prop where
  length_eq : y.length = x.length
  nib_state : ∀ n, n < 4 → nib y (s + 4 * n) =
    if n < m then nib x (o + 4 * n) ^^^ sboxVal (nib x (s + 4 * n)) else nib x (s + 4 * n)
  nib_output : ∀ n, n < 4 → nib y (o + 4 * n) = if n < m then 0 else nib x (o + 4 * n)
  readReg_other : ∀ j, ¬(s ≤ j ∧ j < s + 16) → ¬(o ≤ j ∧ j < o + 16) → readReg y j = readReg x j

section
variable {x : Arena} {s w o m : Nat} (hs : s + 16 ≤ x.length) (hw : w + 20 ≤ x.length) (ho : o + 16 ≤ x.length)
  (hsw : s + 16 ≤ w ∨ w + 20 ≤ s) (hso : s + 16 ≤ o ∨ o + 16 ≤ s) (hwo : w + 20 ≤ o ∨ o + 16 ≤ w)
include hs ho hso

/-- Nibble `m` is done next: it is still as in `x`, and no other nibble changes. -/
theorem SubnibDone.next {y : Arena} (hm : m < 4) (h : SubnibDone x s o m y) :
    SubnibDone x s o (m + 1) (setNib (setNib y (s + 4 * m) (nib y (o + 4 * m) ^^^ sboxVal (nib y (s + 4 * m))))
      (o + 4 * m) 0) := by
  obtain ⟨hlength, hstate, houtput, hother⟩ := h
  have hys : s + 4 * m + 4 ≤ y.length := by omega
  have hyo : o + 4 * m + 4 ≤ y.length := by omega
  refine ⟨by simpa using hlength, fun n hn => ?_, fun n hn => ?_, fun j hjs hjo => ?_⟩
  · rw [nib_setNib_other (by simpa) (by omega)]
    rcases eq_or_ne n m with rfl | hne
    · rw [nib_setNib_same hys, hstate n hn, houtput n hn]
      simp
    · have same_side : n < m + 1 ↔ n < m := by omega
      rw [nib_setNib_other hys (by omega), hstate n hn, if_congr same_side rfl rfl]
  · rcases eq_or_ne n m with rfl | hne
    · rw [nib_setNib_same (by simpa), if_pos (Nat.lt_succ_self n)]
    · have same_side : n < m + 1 ↔ n < m := by omega
      rw [nib_setNib_other (by simpa) (by omega), nib_setNib_other hys (by omega), houtput n hn,
        if_congr same_side rfl rfl]
  · rw [readReg_setNib_other (by simpa) (by omega), readReg_setNib_other hys (by omega), hother j hjs hjo]

include hw hsw hwo

theorem subnibDone_upTo (hclean : clean x w 20 = true) (hm : m ≤ 4) :
    SubnibDone x s o m (applyGates (subnibUpTo s w o m) x) := by
  induction m with
  | zero => exact ⟨rfl, fun _ _ => rfl, fun _ _ => rfl, fun _ _ _ => rfl⟩
  | succ m ih =>
    have ih := ih (by omega)
    have hlength := ih.length_eq
    have still_clean : clean (applyGates (subnibUpTo s w o m) x) w 20 = true :=
      clean_of_readReg_eq hclean fun j _ _ => ih.readReg_other j (by omega) (by omega)
    rw [subnibUpTo_succ, applyGates_append,
      applyGates_subnibOne (by omega) (by omega) (by omega) (by omega) (by omega) (by omega) still_clean]
    exact ih.next hs ho hso (by omega)

end

/-- SUBNIB with the workspace clean does its four nibbles. -/
theorem subnibDone_of_clean {b w o : RegIx} {s : State} (hwf : (Instr.subnib b w o).wellFormed s.nreg = true)
    (hclean : clean s.x w.toNat 20 = true) :
    SubnibDone s.x b.toNat o.toNat 4 (applyGates (expand (.subnib b w o)) s.x) := by
  obtain ⟨⟨hb, hw, ho⟩, hbw, hbo, hwo⟩ := threeRegions_pass.mp hwf
  exact subnibDone_upTo hb hw ho hbw hbo hwo hclean le_rfl

/-- Settles O34: all four nibbles are done. -/
theorem subnibResult : Obligations.SubnibResult := by
  unfold Obligations.SubnibResult
  intro b w o s hwf hclean
  obtain ⟨hlength, hstate, houtput, hother⟩ := subnibDone_of_clean hwf hclean
  refine ⟨_, exec_of_wellFormed hwf, hlength, fun n hn => ⟨?_, ?_⟩, hother⟩
  · rw [hstate n hn, if_pos hn]
  · rw [houtput n hn, if_pos hn]

/-! ### KEYEXP -/

/-- Settles O38: the expansion makes the arena `keyexpArena` of the one on entry, whose nibbles and frame are known. -/
theorem keyexpResult : Obligations.KeyexpResult := by
  unfold Obligations.KeyexpResult
  intro k w r s hwf hclean
  obtain ⟨⟨hk, hw⟩, hkw⟩ := wellFormed_keyexp.mp hwf
  obtain ⟨h0, h1, h2, h3⟩ := nib_keyexpArena hk r
  exact ⟨keyexpArena s.x k.toNat r, exec_of_arena hwf (applyGates_expandKeyexp hk hw hkw hclean r),
    length_keyexpArena _ _ _, h0, h1, h2, h3, fun j hj => readReg_keyexpArena_other hk r (by omega)⟩

end Sys2Proof.Machine
end

section
/-! SRMC (R175, R176) on any scratch: what the two column pairs make of their four nibbles each, with and without
cleanup, and the logical meaning of the state nibbles under the layout maps (R171, R176). -/

namespace Sys2Proof.Machine

/-! ### Constant multiples (R120, R174) -/

theorem gmul_two_xor : ∀ u v : Nibble, gmul 2 (u ^^^ v) = gmul 2 u ^^^ gmul 2 v := by decide
theorem gmul_eight_xor : ∀ u v : Nibble, gmul 8 (u ^^^ v) = gmul 8 u ^^^ gmul 8 v := by decide

theorem gmul_two_four : ∀ u : Nibble, gmul 2 (gmul 4 u) = gmul 8 u := by decide
theorem gmul_eight_four : ∀ u : Nibble, gmul 8 (gmul 4 u) = gmul 4 u ^^^ gmul 2 u := by decide
theorem gmul_nine : ∀ u : Nibble, gmul 9 u = u ^^^ gmul 8 u := by decide

/-- The cleanup of a scratch nibble (R176 step 3): with the column pair u, v mixed over the scratch g, h, what is left
of the scratch nibble g is 9g + 2h, whatever u and v are. -/
theorem scratch_after_cleanup (u v g h : Nibble) :
    g ^^^ gmul 4 u ^^^ gmul 2 (u ^^^ gmul 4 v ^^^ h) ^^^ gmul 8 (v ^^^ gmul 4 u ^^^ g) =
      gmul 9 g ^^^ gmul 2 h := by
  rw [gmul_two_xor, gmul_two_xor, gmul_eight_xor, gmul_eight_xor, gmul_two_four, gmul_eight_four, gmul_nine]
  generalize gmul 4 u = u4
  generalize gmul 2 u = u2
  generalize gmul 8 v = v8
  generalize gmul 8 g = g8
  generalize gmul 2 h = h2
  calc g ^^^ u4 ^^^ (u2 ^^^ v8 ^^^ h2) ^^^ (v8 ^^^ (u4 ^^^ u2) ^^^ g8)
      = g ^^^ g8 ^^^ h2 ^^^ (u4 ^^^ u4) ^^^ (u2 ^^^ u2) ^^^ (v8 ^^^ v8) := by ac_rfl
    _ = g ^^^ g8 ^^^ h2 := by simp only [BitVec.xor_self, BitVec.xor_zero]

/-! ### One column pair -/

/-- The four nibbles of a column pair and its scratch lie in an arena of `n` registers and share none (R175). -/
structure PairFits (n top bot t1 t2 : Nat) : Prop where
  top_le : top + 4 ≤ n
  bot_le : bot + 4 ≤ n
  t1_le : t1 + 4 ≤ n
  t2_le : t2 + 4 ≤ n
  top_bot : top + 4 ≤ bot ∨ bot + 4 ≤ top
  top_t1 : top + 4 ≤ t1 ∨ t1 + 4 ≤ top
  top_t2 : top + 4 ≤ t2 ∨ t2 + 4 ≤ top
  bot_t1 : bot + 4 ≤ t1 ∨ t1 + 4 ≤ bot
  bot_t2 : bot + 4 ≤ t2 ∨ t2 + 4 ≤ bot
  t1_t2 : t1 + 4 ≤ t2 ∨ t2 + 4 ≤ t1

/-- What a column pair leaves in one scratch nibble that held `g`, the other one `h`, for the state nibble `u` whose
multiple goes there: without cleanup the product on top of `g`, with cleanup 9g + 2h (R176). -/
def scratchAfter (cleanup : Cleanup) (u g h : Nibble) : Nibble :=
  match cleanup with
  | .clean => gmul 9 g ^^^ gmul 2 h
  | .noclean => g ^^^ gmul 4 u

section
variable {x : Arena} {top bot t1 t2 : Nat}

/-- The four nibbles after the mixing of a column pair (R176 steps 1 and 2). -/
theorem nib_srmcMix (hfit : PairFits x.length top bot t1 t2) :
    nib (applyGates (srmcMix top bot t1 t2) x) top = nib x top ^^^ gmul 4 (nib x bot) ^^^ nib x t2 ∧
    nib (applyGates (srmcMix top bot t1 t2) x) bot = nib x bot ^^^ gmul 4 (nib x top) ^^^ nib x t1 ∧
    nib (applyGates (srmcMix top bot t1 t2) x) t1 = nib x t1 ^^^ gmul 4 (nib x top) ∧
    nib (applyGates (srmcMix top bot t1 t2) x) t2 = nib x t2 ^^^ gmul 4 (nib x bot) := by
  obtain ⟨htop, hbot, ht1, ht2, htb, htop1, htop2, hbot1, hbot2, h12⟩ := hfit
  simp only [srmcMix, applyGates_append]
  rw [applyGates_mul4Seq ht1 htop1, applyGates_mul4Seq (by simpa) hbot2, applyGates_cxNibble (by simpa) (by omega),
    applyGates_cxNibble (by simpa) (by omega)]
  simp (disch := (try simp only [length_xorNib]); omega) only [nib_xorNib_same, nib_xorNib_other, and_true]
  exact ⟨by ac_rfl, by ac_rfl⟩

/-- The four nibbles after the cleanup of a column pair (R176 step 3). -/
theorem nib_srmcClean (hfit : PairFits x.length top bot t1 t2) :
    nib (applyGates (srmcClean top bot t1 t2) x) top = nib x top ∧
    nib (applyGates (srmcClean top bot t1 t2) x) bot = nib x bot ∧
    nib (applyGates (srmcClean top bot t1 t2) x) t1 = nib x t1 ^^^ gmul 2 (nib x top) ^^^ gmul 8 (nib x bot) ∧
    nib (applyGates (srmcClean top bot t1 t2) x) t2 = nib x t2 ^^^ gmul 2 (nib x bot) ^^^ gmul 8 (nib x top) := by
  obtain ⟨htop, hbot, ht1, ht2, htb, htop1, htop2, hbot1, hbot2, h12⟩ := hfit
  simp only [srmcClean, applyGates_append]
  rw [applyGates_mul2Seq ht1 htop1, applyGates_mul8Seq (by simpa) hbot1, applyGates_mul2Seq (by simpa) hbot2,
    applyGates_mul8Seq (by simpa) htop2]
  simp (disch := (try simp only [length_xorNib]); omega) only [nib_xorNib_same, nib_xorNib_other, and_self]

/-- The four nibbles after a column pair: the mixed state nibbles do not depend on the option, the scratch does. -/
theorem nib_srmcPair (hfit : PairFits x.length top bot t1 t2) (cleanup : Cleanup) :
    nib (applyGates (srmcPair top bot t1 t2 cleanup) x) top = nib x top ^^^ gmul 4 (nib x bot) ^^^ nib x t2 ∧
    nib (applyGates (srmcPair top bot t1 t2 cleanup) x) bot = nib x bot ^^^ gmul 4 (nib x top) ^^^ nib x t1 ∧
    nib (applyGates (srmcPair top bot t1 t2 cleanup) x) t1 = scratchAfter cleanup (nib x top) (nib x t1) (nib x t2) ∧
    nib (applyGates (srmcPair top bot t1 t2 cleanup) x) t2 =
      scratchAfter cleanup (nib x bot) (nib x t2) (nib x t1) := by
  obtain ⟨htop, hbot, h1, h2⟩ := nib_srmcMix hfit
  cases cleanup with
  | noclean =>
    rw [srmcPair, List.append_nil]
    exact ⟨htop, hbot, h1, h2⟩
  | clean =>
    have hfit' : PairFits (applyGates (srmcMix top bot t1 t2) x).length top bot t1 t2 := by rwa [length_applyGates]
    obtain ⟨htop', hbot', h1', h2'⟩ := nib_srmcClean hfit'
    rw [srmcPair, applyGates_append, htop', hbot', h1', h2', htop, hbot, h1, h2]
    exact ⟨rfl, rfl, scratch_after_cleanup _ _ _ _, scratch_after_cleanup _ _ _ _⟩

/-- A column pair keeps every nibble that shares no register with its four. -/
theorem nib_srmcPair_other {c : Nat} (htop : top + 4 ≤ c ∨ c + 4 ≤ top) (hbot : bot + 4 ≤ c ∨ c + 4 ≤ bot)
    (ht1 : t1 + 4 ≤ c ∨ c + 4 ≤ t1) (ht2 : t2 + 4 ≤ c ∨ c + 4 ≤ t2) (cleanup : Cleanup) :
    nib (applyGates (srmcPair top bot t1 t2 cleanup) x) c = nib x c :=
  nib_applyGates_other (operandsIn_srmcPair (fun j _ _ => by omega) (fun j _ _ => by omega) (fun j _ _ => by omega)
    (fun j _ _ => by omega) cleanup) x

end

/-! ### Both column pairs -/

/-- What SRMC makes of the state nibbles p and the scratch nibbles g, read in the block at `b` and the scratch at `w`
(R176). -/
structure SrmcDone (x : Arena) (b w : Nat) (cleanup : Cleanup) (y : Arena) : Prop where
  p0 : nib y b = nib x b ^^^ gmul 4 (nib x (b + 12)) ^^^ nib x (w + 4)
  p1 : nib y (b + 4) = nib x (b + 4) ^^^ gmul 4 (nib x (b + 8)) ^^^ nib x (w + 12)
  p2 : nib y (b + 8) = nib x (b + 8) ^^^ gmul 4 (nib x (b + 4)) ^^^ nib x (w + 8)
  p3 : nib y (b + 12) = nib x (b + 12) ^^^ gmul 4 (nib x b) ^^^ nib x w
  g0 : nib y w = scratchAfter cleanup (nib x b) (nib x w) (nib x (w + 4))
  g1 : nib y (w + 4) = scratchAfter cleanup (nib x (b + 12)) (nib x (w + 4)) (nib x w)
  g2 : nib y (w + 8) = scratchAfter cleanup (nib x (b + 4)) (nib x (w + 8)) (nib x (w + 12))
  g3 : nib y (w + 12) = scratchAfter cleanup (nib x (b + 8)) (nib x (w + 12)) (nib x (w + 8))

theorem srmcDone_pairs {x : Arena} {b w : Nat} (hb : b + 16 ≤ x.length) (hw : w + 16 ≤ x.length)
    (hbw : b + 16 ≤ w ∨ w + 16 ≤ b) (cleanup : Cleanup) :
    SrmcDone x b w cleanup (applyGates (srmcPair (b + 4) (b + 8) (w + 8) (w + 12) cleanup)
      (applyGates (srmcPair b (b + 12) w (w + 4) cleanup) x)) := by
  have outer_fits : PairFits x.length b (b + 12) w (w + 4) := by constructor <;> omega
  obtain ⟨o0, o3, og0, og1⟩ := nib_srmcPair outer_fits cleanup
  generalize hz : applyGates (srmcPair b (b + 12) w (w + 4) cleanup) x = z at o0 o3 og0 og1 ⊢
  have hlength : z.length = x.length := by rw [← hz, length_applyGates]
  have inner_fits : PairFits z.length (b + 4) (b + 8) (w + 8) (w + 12) := by constructor <;> omega
  obtain ⟨i1, i2, ig2, ig3⟩ := nib_srmcPair inner_fits cleanup
  have before {c : Nat} (h : c = b + 4 ∨ c = b + 8 ∨ c = w + 8 ∨ c = w + 12) : nib z c = nib x c := by
    rw [← hz]
    exact nib_srmcPair_other (by omega) (by omega) (by omega) (by omega) cleanup
  have after {c : Nat} (h : c = b ∨ c = b + 12 ∨ c = w ∨ c = w + 4) :
      nib (applyGates (srmcPair (b + 4) (b + 8) (w + 8) (w + 12) cleanup) z) c = nib z c :=
    nib_srmcPair_other (by omega) (by omega) (by omega) (by omega) cleanup
  exact
    { p0 := by rw [after (by omega), o0]
      p1 := by rw [i1, before (by omega), before (by omega), before (by omega)]
      p2 := by rw [i2, before (by omega), before (by omega), before (by omega)]
      p3 := by rw [after (by omega), o3]
      g0 := by rw [after (by omega), og0]
      g1 := by rw [after (by omega), og1]
      g2 := by rw [ig2, before (by omega), before (by omega), before (by omega)]
      g3 := by rw [ig3, before (by omega), before (by omega), before (by omega)] }

/-! ### The command -/

theorem srmcDone_of_wellFormed {b w : RegIx} {cleanup : Cleanup} {s : State}
    (hwf : (Instr.srmc b w cleanup).wellFormed s.nreg = true) :
    SrmcDone s.x b.toNat w.toNat cleanup (applyGates (expand (.srmc b w cleanup)) s.x) := by
  obtain ⟨⟨hb, hw⟩, hbw⟩ := twoRegions_pass.mp hwf
  rw [expand, expandSrmc, applyGates_append]
  exact srmcDone_pairs hb hw hbw cleanup

/-- SRMC changes no register outside the state block and the scratch. -/
theorem readReg_srmc_other {b w : RegIx} {cleanup : Cleanup} {j : Nat} (hb : ¬(b.toNat ≤ j ∧ j < b.toNat + 16))
    (hw : ¬(w.toNat ≤ j ∧ j < w.toNat + 16)) (x : Arena) :
    readReg (applyGates (expand (.srmc b w cleanup)) x) j = readReg x j := by
  have houtside : ∀ r ∈ [region b 16, region w 16], ¬(r.base ≤ j ∧ j < r.base + r.size) :=
    List.forall_mem_cons.mpr ⟨hb, List.forall_mem_singleton.mpr hw⟩
  exact readReg_applyGates_expand_other (i := .srmc b w cleanup) houtside x

/-- Settles O35: with cleanup the scratch nibbles are 9g + 2h. -/
theorem srmcResult : Obligations.SrmcResult := by
  unfold Obligations.SrmcResult
  intro b w s hwf
  obtain ⟨p0, p1, p2, p3, g0, g1, g2, g3⟩ := srmcDone_of_wellFormed hwf
  exact ⟨_, exec_of_wellFormed hwf, length_applyGates _ _, ⟨p0, p1, p2, p3, g0, g1, g2, g3⟩,
    fun j hb hw => readReg_srmc_other hb hw s.x⟩

/-- Settles O36: without cleanup the scratch nibbles keep the products. -/
theorem srmcNocleanResult : Obligations.SrmcNocleanResult := by
  unfold Obligations.SrmcNocleanResult
  intro b w s hwf
  obtain ⟨p0, p1, p2, p3, g0, g1, g2, g3⟩ := srmcDone_of_wellFormed hwf
  exact ⟨_, exec_of_wellFormed hwf, length_applyGates _ _, ⟨p0, p1, p2, p3, g0, g1, g2, g3⟩,
    fun j hb hw => readReg_srmc_other hb hw s.x⟩

/-! ### The logical meaning -/

/-- ShiftRows of a logical state is the change of the layout map (R171). -/
theorem shiftRows_logicalState (x : Arena) (b : Nat) :
    shiftRows (logicalState x b .ident) = logicalState x b .swap13 := rfl

/-- With the scratch clean SRMC mixes the columns that the map swap13 reads. -/
theorem SrmcDone.mixes {x y : Arena} {b w : Nat} {cleanup : Cleanup} (h : SrmcDone x b w cleanup y)
    (hclean : clean x w 16 = true) : logicalState y b .swap13 = mixColumns (logicalState x b .swap13) := by
  obtain ⟨p0, p1, p2, p3, -, -, -, -⟩ := h
  have absorbed (v : Nibble) {k : Nat} (hk : k + 4 ≤ 16) : v ^^^ nib x (w + k) = v := by
    rw [nib_of_clean hclean hk]
    exact BitVec.xor_zero
  simp only [logicalState, mixColumns, Quad.mk.injEq]
  exact ⟨p0.trans (absorbed _ (by decide)), p3.trans (absorbed _ (k := 0) (by decide)),
    p2.trans (absorbed _ (by decide)), p1.trans (absorbed _ (by decide))⟩

/-- Settles O37: the two readings of the state on entry differ by ShiftRows. -/
theorem srmcMixesShiftedRows : Obligations.SrmcMixesShiftedRows := by
  unfold Obligations.SrmcMixesShiftedRows
  intro b w c s hwf hclean
  have hmixes := (srmcDone_of_wellFormed hwf).mixes hclean
  exact ⟨_, exec_of_wellFormed hwf, by rw [shiftRows_logicalState, hmixes], hmixes⟩

end Sys2Proof.Machine
end

section
/-! ADDRK, ADDRK_CONST and LOADC on every arena (R221, R223, R225): ADDRK is one block of CX gates from the key block to
the state block, and the immediates are added character by character, each character in a register of its own. -/

namespace Sys2Proof.Machine

/-! ### ADDRK as one block -/

/-- Every primitive of ADDRK's expansion is a CX from a register of the key block to one of the state block. -/
theorem mem_addrkUpTo {s k m : Nat} {l : Layout} {g : Gate} (hm : m ≤ 4) (hg : g ∈ addrkUpTo s k l m) :
    ∃ c t, g = .cx c t ∧ (k ≤ c ∧ c < k + 16) ∧ s ≤ t ∧ t < s + 16 := by
  obtain ⟨n, hn, hgn⟩ := List.mem_flatMap.mp hg
  obtain ⟨p, hp, rfl⟩ := List.mem_map.mp hgn
  have hoffsets : ∀ q ∈ [(0, 0), (1, 1), (2, 2), (3, 3)], q.1 < 4 ∧ q.2 < 4 := by decide
  have hn : n < m := List.mem_range.mp hn
  have hphys := physicalNibble_lt (show n < 4 by omega) l
  have hp := hoffsets p hp
  exact ⟨_, _, rfl, by omega, by omega⟩

section
variable {s k : Nat} (hsk : s + 16 ≤ k ∨ k + 16 ≤ s) (l : Layout)

include hsk in
/-- The state block and the key block share no register, so ADDRK undoes itself (R151, R221). -/
theorem xorBlock_addrkUpTo : XorBlock (addrkUpTo s k l 4) := by
  refine ⟨fun g hg => ?_, fun g hg h hh => ?_⟩
  · obtain ⟨c, t, rfl, -⟩ := mem_addrkUpTo le_rfl hg
    rfl
  · obtain ⟨c, t, rfl, -, ht⟩ := mem_addrkUpTo le_rfl hg
    obtain ⟨c', t', rfl, hc', -⟩ := mem_addrkUpTo le_rfl hh
    simp only [gateTarget, gateControls, List.mem_singleton]
    omega

theorem readReg_addrkUpTo_other {j : Nat} (hj : ¬(s ≤ j ∧ j < s + 16)) (x : Arena) :
    readReg (applyGates (addrkUpTo s k l 4) x) j = readReg x j := by
  refine readReg_applyGates_other (fun g hg htarget => hj ?_) x
  obtain ⟨c, t, rfl, -, ht⟩ := mem_addrkUpTo le_rfl hg
  exact (show t = j from htarget) ▸ ht

end

/-- Two blocks added nibble by nibble are added as 16-bit values (R43). -/
theorem val16_xor {x y z : Arena} {b k c : Nat}
    (h : ∀ n, n < 4 → nib y (c + 4 * n) = nib x (b + 4 * n) ^^^ nib z (k + 4 * n)) :
    val16 y c = val16 x b ^^^ val16 z k := by
  apply BitVec.eq_of_getLsbD_eq
  intro i hi
  rw [BitVec.getLsbD_xor, getLsbD_val16_eq_nib _ _ hi, getLsbD_val16_eq_nib _ _ hi, getLsbD_val16_eq_nib _ _ hi,
    h (3 - i / 4) (by omega), BitVec.getLsbD_xor]

/-- Settles O40: each state nibble takes its key nibble, and the expansion is a block that writes none of its
controls. -/
theorem addrkResult : Obligations.AddrkResult := by
  unfold Obligations.AddrkResult
  intro b k l s hwf
  obtain ⟨⟨hb, -⟩, hbk⟩ := wellFormed_addrk.mp hwf
  have taken (n : Nat) (hn : n < 4) :
      nib (applyGates (addrkUpTo b.toNat k.toNat l 4) s.x) (b.toNat + 4 * physicalNibble l n) =
        nib s.x (b.toNat + 4 * physicalNibble l n) ^^^ nib s.x (k.toNat + 4 * n) := by
    rw [nib_addrkUpTo hb hbk l le_rfl hn, if_pos hn]
  refine ⟨_, exec_of_arena hwf (congrArg (applyGates · s.x) (expand_addrk b k l)), length_applyGates _ _, taken,
    fun j hj => readReg_addrkUpTo_other l hj s.x, ?_, ?_⟩
  · rintro rfl
    exact val16_xor taken
  · rw [expand_addrk]
    exact (xorBlock_addrkUpTo hbk l).applyGates_twice s.x

/-! ### Characters of a block -/

/-- The characters of one block are in different registers (R43). -/
theorem charReg_injective {b i j : Nat} (hi : i < 16) (hj : j < 16) (h : charReg b i = charReg b j) : i = j := by
  rw [charReg_eq b hi, charReg_eq b hj] at h
  omega

theorem charReg_mem (b : Nat) {j : Nat} (hj : j < 16) : b ≤ charReg b j ∧ charReg b j < b + 16 := by
  rw [charReg_eq b hj]
  omega

/-- Character j of a block is value bit 15 - j (R43, R222). -/
theorem readReg_charReg (x : Arena) (b : Nat) {j : Nat} (hj : j < 16) :
    readReg x (charReg b j) = (val16 x b).getLsbD (15 - j) := (getLsbD_val16 x b (by omega)).symm

/-- A block whose characters are the bits of `v` has the value `v`. -/
theorem val16_eq_of_chars {x : Arena} {b : Nat} {v : Block}
    (h : ∀ j, j < 16 → readReg x (charReg b j) = v.getLsbD (15 - j)) : val16 x b = v := by
  apply BitVec.eq_of_getLsbD_eq
  intro i hi
  have hchar := h (15 - i) (by omega)
  rwa [readReg_charReg x b (by omega), show 15 - (15 - i) = i by omega] at hchar

theorem val16_of_clean {x : Arena} {b : Nat} (hclean : clean x b 16 = true) : val16 x b = 0 := by
  refine val16_eq_of_chars fun j hj => ?_
  rw [charReg_eq b hj, Nat.add_assoc, clean_iff.mp hclean _ (by omega), BitVec.ofNat_eq_ofNat, BitVec.getLsbD_zero]

theorem mem_setChars {imm : Block} {j : Nat} (hj : j < 16) : j ∈ setChars imm ↔ imm.getLsbD (15 - j) = true := by
  simp [setChars, hj]

theorem nodup_setChars (imm : Block) : (setChars imm).Nodup := List.nodup_range.filter _

/-! ### LOADC -/

section
variable {x : Arena} {b k : Nat} {l : List Nat}

/-- One FLIP for each character of `l`. -/
theorem readReg_flipChars (hb : b + 16 ≤ x.length) (hl : ∀ j ∈ l, j < 16) (hnodup : l.Nodup) {i : Nat} (hi : i < 16) :
    readReg (applyGates (l.map fun j => .flip (charReg b j)) x) (charReg b i) =
      (readReg x (charReg b i) ^^ decide (i ∈ l)) := by
  induction l generalizing x with
  | nil => simp
  | cons j l ih =>
    obtain ⟨hj, hl⟩ := List.forall_mem_cons.mp hl
    obtain ⟨hjl, hnodup⟩ := List.nodup_cons.mp hnodup
    have hin := charReg_mem b hj
    rw [List.map_cons, applyGates_cons, ih (by simpa) hl hnodup]
    rcases eq_or_ne i j with rfl | hne
    · rw [applyGate, readReg_writeReg_same (by omega)]
      simp [hjl]
    · have hother : charReg b j ≠ charReg b i := fun h => hne (charReg_injective hi hj h.symm)
      rw [applyGate, readReg_writeReg_other hother]
      simp [hne]

/-- One FLIP and one CX from the flipped register: the CX reads the new value (R223). -/
theorem readReg_flipCx {p q : Nat} (hp : p < x.length) (hq : q < x.length) (hpq : p ≠ q) :
    readReg (applyGates [.flip p, .cx p q] x) p = (!readReg x p) ∧
      readReg (applyGates [.flip p, .cx p q] x) q = (readReg x q ^^ !readReg x p) := by
  simp only [applyGates_cons, applyGates_nil, applyGate]
  rw [readReg_writeReg_other hpq.symm, readReg_writeReg_same hp, readReg_writeReg_same (by simpa),
    readReg_writeReg_other hpq]
  exact ⟨rfl, rfl⟩

/-- One FLIP of the key character and one CX from it to the state character, for each character of `l`. -/
theorem readReg_flipCxChars (hb : b + 16 ≤ x.length) (hk : k + 16 ≤ x.length) (hbk : b + 16 ≤ k ∨ k + 16 ≤ b)
    (hl : ∀ j ∈ l, j < 16) (hnodup : l.Nodup) {i : Nat} (hi : i < 16) :
    let y := applyGates (l.flatMap fun j => [.flip (charReg k j), .cx (charReg k j) (charReg b j)]) x
    readReg y (charReg k i) = (readReg x (charReg k i) ^^ decide (i ∈ l)) ∧
      readReg y (charReg b i) = (readReg x (charReg b i) ^^ (decide (i ∈ l) && !readReg x (charReg k i))) := by
  induction l generalizing x with
  | nil => simp
  | cons j l ih =>
    obtain ⟨hj, hl⟩ := List.forall_mem_cons.mp hl
    obtain ⟨hjl, hnodup⟩ := List.nodup_cons.mp hnodup
    have hjk := charReg_mem k hj
    have hjb := charReg_mem b hj
    have hik := charReg_mem k hi
    have hib := charReg_mem b hi
    obtain ⟨hkey, hstate⟩ := ih (x := applyGates [.flip (charReg k j), .cx (charReg k j) (charReg b j)] x)
      (by simpa) (by simpa) hl hnodup
    simp only [List.flatMap_cons, applyGates_append]
    rw [hkey, hstate]
    rcases eq_or_ne i j with rfl | hne
    · obtain ⟨hflipped, hadded⟩ := readReg_flipCx (x := x) (p := charReg k i) (q := charReg b i) (by omega) (by omega)
        (by omega)
      rw [hflipped, hadded]
      simp [hjl]
    · have untouched {c : Nat} (hck : charReg k j ≠ c) (hcb : charReg b j ≠ c) :
          readReg (applyGates [.flip (charReg k j), .cx (charReg k j) (charReg b j)] x) c = readReg x c :=
        readReg_applyGates_other (by simpa [gateTarget] using ⟨hck, hcb⟩) x
      rw [untouched (c := charReg k i) (fun h => hne (charReg_injective hi hj h.symm)) (by omega),
        untouched (c := charReg b i) (by omega) (fun h => hne (charReg_injective hi hj h.symm))]
      simp [hne]

end

/-- Settles O43: the FLIPs hit the characters of the immediate that are '1', each in its own register. -/
theorem loadcResult : Obligations.LoadcResult := by
  unfold Obligations.LoadcResult
  intro b imm s hwf
  have hb : b.toNat + 16 ≤ s.x.length := of_decide_eq_true (wellFormed_iff.mp hwf).1
  have hvalue : val16 (applyGates (expand (.loadc b imm)) s.x) b.toNat = val16 s.x b.toNat ^^^ imm := by
    refine val16_eq_of_chars fun j hj => ?_
    rw [expand, expandLoadc, readReg_flipChars hb (fun _ => setChars_lt) (nodup_setChars imm) hj,
      readReg_charReg s.x _ hj, BitVec.getLsbD_xor]
    simp [mem_setChars hj]
  refine ⟨_, exec_of_wellFormed hwf, length_applyGates _ _, hvalue, fun j hj => ?_, fun hclean => ?_⟩
  · have houtside : ∀ r ∈ [region b 16], ¬(r.base ≤ j ∧ j < r.base + r.size) := List.forall_mem_singleton.mpr hj
    exact readReg_applyGates_expand_other (i := .loadc b imm) houtside s.x
  · rw [hvalue, val16_of_clean hclean]
    exact BitVec.zero_xor

/-! ### ADDRK_CONST -/

/-- Settles O42: each '1' of the immediate inverts its key character, and the inverted key character is added to the
state. -/
theorem addrkConstResult : Obligations.AddrkConstResult := by
  unfold Obligations.AddrkConstResult
  intro b k imm s hwf
  obtain ⟨⟨hb, hk⟩, hbk⟩ := twoRegions_pass.mp hwf
  have hchars {j : Nat} (hj : j < 16) :=
    readReg_flipCxChars hb hk hbk (fun _ => setChars_lt) (nodup_setChars imm) hj
  have hkey : val16 (applyGates (expand (.addrkConst b k imm)) s.x) k.toNat = val16 s.x k.toNat ^^^ imm := by
    refine val16_eq_of_chars fun j hj => ?_
    rw [expand, expandAddrkConst, (hchars hj).1, readReg_charReg s.x _ hj, BitVec.getLsbD_xor]
    simp [mem_setChars hj]
  have hstate : val16 (applyGates (expand (.addrkConst b k imm)) s.x) b.toNat =
      val16 s.x b.toNat ^^^ (imm &&& ~~~(val16 s.x k.toNat)) := by
    refine val16_eq_of_chars fun j hj => ?_
    rw [expand, expandAddrkConst, (hchars hj).2, readReg_charReg s.x _ hj, readReg_charReg s.x _ hj,
      BitVec.getLsbD_xor]
    simp [mem_setChars hj, show 15 - j < 16 by omega]
  refine ⟨_, exec_of_wellFormed hwf, length_applyGates _ _, hkey, hstate, fun j hjb hjk => ?_, ?_, fun hclean => ?_⟩
  · have houtside : ∀ r ∈ [region b 16, region k 16], ¬(r.base ≤ j ∧ j < r.base + r.size) :=
      List.forall_mem_cons.mpr ⟨hjb, List.forall_mem_singleton.mpr hjk⟩
    exact readReg_applyGates_expand_other (i := .addrkConst b k imm) houtside s.x
  · rintro rfl
    rfl
  · rw [hkey, hstate, val16_of_clean hclean, BitVec.ofNat_eq_ofNat, BitVec.not_zero, BitVec.and_allOnes]
    exact ⟨BitVec.zero_xor, rfl⟩

end Sys2Proof.Machine
end

section
/-! The contracts (R280): the workspaces of GF_INV, SBOX, SUBNIB and KEYEXP are as on entry, the output region of SUBNIB
ends at zero, and the scratch of SRMC with cleanup is 9g + 2h of a clean scratch. -/

namespace Sys2Proof.Machine

/-! ### Clean regions after a command -/

theorem allClean_cons {x : Arena} {f : RegIx} {n : Nat} {rs : List Region} :
    allClean x (region f n :: rs) = true ↔ clean x f.toNat n = true ∧ allClean x rs = true := by
  simp [allClean, region]

theorem allClean_nil (x : Arena) : allClean x [] = true := rfl

theorem clean_xorNib_other {x : Arena} {o b n : Nat} (ho : o + 4 ≤ x.length) (h : b + n ≤ o ∨ o + 4 ≤ b)
    (hclean : clean x b n = true) (v : Nibble) : clean (xorNib x o v) b n = true :=
  clean_of_readReg_eq hclean fun j _ _ => readReg_xorNib_other ho (by omega) v

/-- A block is clean where its four nibbles are zero. -/
theorem clean_of_nibs {x : Arena} {b : Nat} (h : ∀ n, n < 4 → nib x (b + 4 * n) = 0) : clean x b 16 = true := by
  refine clean_iff.mpr fun k hk => ?_
  have hbit := getLsbD_nib x (b + 4 * (k / 4)) (k % 4) (by omega)
  rw [h (k / 4) (by omega), BitVec.ofNat_eq_ofNat, BitVec.getLsbD_zero] at hbit
  rw [hbit, show b + 4 * (k / 4) + k % 4 = b + k by omega]

/-- The cleanup of SRMC leaves a clean scratch clean: 9*0 + 2*0 = 0 (R176). -/
theorem SrmcDone.scratch_clean {x y : Arena} {b w : Nat} (h : SrmcDone x b w .clean y) (hclean : clean x w 16 = true) :
    clean y w 16 = true := by
  obtain ⟨-, -, -, -, g0, g1, g2, g3⟩ := h
  obtain ⟨h0, h1, h2, h3⟩ := nibs_of_clean hclean
  have zero (u : Nibble) : scratchAfter .clean u 0 0 = 0 := rfl
  rw [h0, h1, zero] at g0 g1
  rw [h2, h3, zero] at g2 g3
  refine clean_of_nibs fun n hn => ?_
  have hn' : n = 0 ∨ n = 1 ∨ n = 2 ∨ n = 3 := by omega
  rcases hn' with rfl | rfl | rfl | rfl
  · exact g0
  · exact g1
  · exact g2
  · exact g3

/-! ### Every command -/

/-- A well-formed command whose contract regions are clean on entry leaves clean the regions R280 names. -/
theorem allClean_leavesClean {i : Instr} {s : State} (hwf : i.wellFormed s.nreg = true)
    (hneeds : allClean s.x (needsClean i) = true) :
    allClean (applyGates (expand i) s.x) (leavesClean i) = true := by
  cases i with
  | gfInv a w o =>
    obtain ⟨⟨-, hw, ho⟩, haw, hao, hwo⟩ := threeRegions_pass.mp hwf
    have harena : applyGates (expand (.gfInv a w o)) s.x = _ := applyGates_invSeq hw ho haw hao hwo
    rw [harena]
    exact allClean_cons.mpr ⟨clean_xorNib_other ho hwo (allClean_cons.mp hneeds).1 _, allClean_nil _⟩
  | sbox a w o =>
    obtain ⟨⟨-, hw, ho⟩, haw, hao, hwo⟩ := threeRegions_pass.mp hwf
    have harena : applyGates (expand (.sbox a w o)) s.x = _ := applyGates_sboxSeq hw ho haw hao hwo
    rw [harena]
    exact allClean_cons.mpr ⟨clean_xorNib_other ho hwo (allClean_cons.mp hneeds).1 _, allClean_nil _⟩
  | subnib b w o =>
    obtain ⟨-, hbw, -, hwo⟩ := threeRegions_pass.mp hwf
    obtain ⟨hclean, -⟩ := allClean_cons.mp hneeds
    obtain ⟨-, -, houtput, hother⟩ := subnibDone_of_clean hwf hclean
    have workspace := clean_of_readReg_eq hclean fun j _ _ => hother j (by omega) (by omega)
    have output := clean_of_nibs fun n hn => (houtput n hn).trans (if_pos hn)
    exact allClean_cons.mpr ⟨workspace, allClean_cons.mpr ⟨output, allClean_nil _⟩⟩
  | srmc b w cleanup =>
    cases cleanup with
    | noclean => exact allClean_nil _
    | clean =>
      have scratch := (srmcDone_of_wellFormed hwf).scratch_clean (allClean_cons.mp hneeds).1
      exact allClean_cons.mpr ⟨scratch, allClean_nil _⟩
  | keyexp k w r =>
    obtain ⟨⟨hk, hw⟩, hkw⟩ := wellFormed_keyexp.mp hwf
    obtain ⟨hclean, -⟩ := allClean_cons.mp hneeds
    have harena : applyGates (expand (.keyexp k w r)) s.x = _ := applyGates_expandKeyexp hk hw hkw hclean r
    have workspace := clean_of_readReg_eq hclean fun j _ _ => readReg_keyexpArena_other hk r (by omega)
    rw [harena]
    exact allClean_cons.mpr ⟨workspace, allClean_nil _⟩
  | _ => exact allClean_nil _

/-- Settles O44: a well-formed command completes without a fault, and its expansion keeps its contract. -/
theorem contractsKept : Obligations.ContractsKept := by
  unfold Obligations.ContractsKept
  exact fun i s hwf hneeds => ⟨_, exec_of_wellFormed hwf, rfl, allClean_leavesClean hwf hneeds⟩

end Sys2Proof.Machine
end

section
/-! The strings of the classical schedule (R205): the string of a value holds sixteen characters '0' or '1' and no
space, so PARSE16 takes it as it stands and reads the value back. -/

namespace Sys2Proof.Machine

@[simp] theorem length_bits16 (v : Block) : (bits16 v).length = 16 := by
  simp [bits16]

theorem getElem?_bits16 (v : Block) {j : Nat} (hj : j < 16) :
    (bits16 v)[j]? = some (if v.getLsbD (15 - j) then '1' else '0') := by
  simp [bits16, hj]

theorem mem_bits16 {v : Block} {c : Char} (hc : c ∈ bits16 v) : c = '0' ∨ c = '1' := by
  obtain ⟨j, -, rfl⟩ := List.mem_map.mp hc
  split
  · exact .inr rfl
  · exact .inl rfl

/-- There is no space to strip. -/
theorem stripSpaces_bits16 (v : Block) : stripSpaces (bits16 v) = bits16 v := by
  refine List.filter_eq_self.mpr fun c hc => ?_
  rcases mem_bits16 hc with rfl | rfl <;> rfl

theorem bitsValue_bits16 (v : Block) : bitsValue (bits16 v) = v := by
  apply BitVec.eq_of_getLsbD_eq
  intro i hi
  have hchar := getLsbD_bitsValue (length_bits16 v) (j := 15 - i) (by omega)
  rw [getElem?_bits16 v (by omega), show 15 - (15 - i) = i by omega] at hchar
  rw [Bool.eq_iff_iff, hchar]
  cases v.getLsbD i <;> simp

theorem parse16_bits16 (v : Block) : parse16 (bits16 v) = .ok v := by
  have hstrip := stripSpaces_bits16 v
  rw [parse16_eq_ok (by rw [hstrip, length_bits16]) (fun c hc => mem_bits16 (hstrip ▸ hc)), hstrip, bitsValue_bits16]

/-- Settles O48: PARSE16 reads the string of a key back, and the schedule of a string is that of what PARSE16 reads. -/
theorem keyStringsRoundTrip : Obligations.KeyStringsRoundTrip := by
  unfold Obligations.KeyStringsRoundTrip
  refine ⟨fun v => ⟨length_bits16 v, parse16_bits16 v⟩, fun k => ?_, fun str herror => ?_⟩
  · rw [generateRoundKeys, parse16_bits16]
  · rw [generateRoundKeys, herror]

end Sys2Proof.Machine
end
